-- ==== Sys2Proof/Word.lean ====
section
/-! DEFINITION. The word types of the block and its two composite values, a colour and a control point
(00_scope.md, section 6 and rule R6). -/

namespace Sys2Proof

/-- One colour channel, a position, an immediate, a palette index. -/
abbrev Byte := BitVec 8
/-- A beat value, a pixel number of the history, the fault information. -/
abbrev Half := BitVec 16
/-- The one access width of the host port (20_memory.md R68). -/
abbrev Word := BitVec 32
/-- A word address of the host port (20_memory.md R60, R61). -/
abbrev Addr := BitVec 12

/-- "A colour is a triple `(r, g, b)`, each component an unsigned 8-bit number" (00_scope.md, section 6). -/
structure Colour where
  r : Byte
  g : Byte
  b : Byte
deriving DecidableEq, Repr

/-- `BLACK` is `(0, 0, 0)` (00_scope.md, section 6). -/
abbrev Colour.black : Colour := ⟨0, 0, 0⟩

/-- A gradient control point: position and colour (10_state.md R28). -/
structure ControlPoint where
  pos : Byte
  rgb : Colour
deriving DecidableEq, Repr

end Sys2Proof
end

