-- ==== Sys2Proof/Config.lean ====
section
/-! DEFINITION. What an instance fixes (the parameters of 00_scope.md R4) and the free values, opaque constants
that no proof can look into. -/

namespace Sys2Proof

/-- What `PBLEND4` puts in entries 13 to 15 (00_scope.md R4, 40_palette_build.md R105). -/
inductive Blend4Tail where
  | wrap
  | hold
deriving DecidableEq, Repr

/-- The parameters of one instance as written down; WellFormed.lean says which are legal (00_scope.md R4). -/
structure RawParams where
  /-- `N`, the number of pixels. -/
  n          : Nat
  /-- `CPMAX`, the capacity of the control-point table. -/
  cpmax      : Nat
  /-- `BLEND4_TAIL`. -/
  blend4Tail : Blend4Tail
  /-- `GLIT_B[1..17]`: the list's element `a - 1` is `GLIT_B[a]`. -/
  glitB      : List Nat
  /-- `JUGGLE_STEP`. -/
  juggleStep : Nat
deriving DecidableEq, Repr

/-- The default values of 00_scope.md R4. -/
def RawParams.default : RawParams where
  n          := 61
  cpmax      := 16
  blend4Tail := .wrap
  glitB      := [89, 86, 83, 78, 73, 66, 59, 52, 45, 37, 30, 23, 16, 11, 6, 3, 0]
  juggleStep := 0

/-- FREE VALUE: the word the random source gives at exchange number `k` when State lists none (00_scope.md R11:
"any value in range may come back"; log 3). -/
opaque Config.freeDraw (k : Nat) : Nat

/-- FREE VALUE: what control point `j` holds after reset number `epoch` (10_state.md R38; log 5). -/
opaque Config.powerOnCp (epoch j : Nat) : BitVec 32

/-- FREE VALUE: what palette entry `k` holds after reset number `epoch` (10_state.md R38; log 5). -/
opaque Config.powerOnLut (epoch k : Nat) : BitVec 24

/-- FREE VALUE: what pixel `i` holds after reset number `epoch` (10_state.md R38; log 5). -/
opaque Config.powerOnPix (epoch i : Nat) : BitVec 24

/-- FREE VALUE: what a host read of an entry nothing has written returns, a new one at each read (10_state.md R27:
"any 24-bit value, possibly different at each read"; log 6). -/
opaque Config.unwrittenLut (count : Nat) : BitVec 24

end Sys2Proof
end

