-- ==== Sys2Proof/Syntax.lean ====
section
/-! DEFINITION. The sixteen commands, one constructor per row of spec/opcode_table.json (30_encoding.md R82). -/

namespace Sys2Proof

/-- A command. An immediate is "an unsigned 8-bit number used as it stands" (30_encoding.md R81). -/
inductive Instr where
  | nop
  | pbuild
  | gqry (pos : Byte)
  | pblend4
  | sample (idx : Byte)
  | sampleb (idx bri : Byte)
  | rsweep
  | rsweepg
  | rleader
  | rdist
  | rconfetti
  | rjuggle
  | rsinelon
  | rcandle
  | fade (amt : Byte)
  | glitter (chance : Byte)
deriving DecidableEq, Repr

end Sys2Proof
end

