-- ==== Sys2Proof/WellFormed.lean ====
section
/-! DEFINITION. What a well-formed command is and which parameters make a legal instance. -/

namespace Sys2Proof

/-- "Every 8-bit value is legal for every immediate" (30_encoding.md R81), and the type of an immediate is 8 bits, so
every command that can be written down is well-formed. -/
def Instr.wellFormed : Instr → Bool
  | .nop | .pbuild | .pblend4 => true
  | .gqry _ | .sample _ | .sampleb _ _ | .fade _ | .glitter _ => true
  | .rsweep | .rsweepg | .rleader | .rdist | .rconfetti | .rjuggle | .rsinelon | .rcandle => true

/-- `N` is 1 to 1024 (00_scope.md R4; "`N = 0` is not a legal instance"). -/
def RawParams.nLegal (p : RawParams) : Bool := decide (1 ≤ p.n) && decide (p.n ≤ 1024)

/-- `CPMAX` is 2 to 64 (00_scope.md R4). -/
def RawParams.cpmaxLegal (p : RawParams) : Bool := decide (2 ≤ p.cpmax) && decide (p.cpmax ≤ 64)

/-- Seventeen brightnesses, "each 0 to 90, non-increasing in the age" (00_scope.md R4). -/
def RawParams.glitBLegal (p : RawParams) : Bool :=
  decide (p.glitB.length = 17) && p.glitB.all (fun g => decide (g ≤ 90))
    && (p.glitB.zip p.glitB.tail).all (fun ab => decide (ab.2 ≤ ab.1))

/-- `JUGGLE_STEP` is 0 to 255 (00_scope.md R4). -/
def RawParams.juggleStepLegal (p : RawParams) : Bool := decide (p.juggleStep ≤ 255)

/-- All the bounds of 00_scope.md R4. -/
def RawParams.wellFormed (p : RawParams) : Bool :=
  p.nLegal && p.cpmaxLegal && p.glitBLegal && p.juggleStepLegal

/-- The parameters of a legal instance; 93_implementation_defined.md U3: "the model has no such instance" for others. -/
structure Params where
  raw   : RawParams
  legal : raw.wellFormed = true
deriving DecidableEq, Repr

namespace Params

/-- `N`. -/
def n (p : Params) : Nat := p.raw.n
/-- `CPMAX`. -/
def cpmax (p : Params) : Nat := p.raw.cpmax
/-- `BLEND4_TAIL`. -/
def blend4Tail (p : Params) : Blend4Tail := p.raw.blend4Tail
/-- `GLIT_B[a]`, for `a` 1 to 17. -/
def glitB (p : Params) (a : Nat) : Nat := p.raw.glitB.getD (a - 1) 0
/-- `JUGGLE_STEP`. -/
def juggleStep (p : Params) : Nat := p.raw.juggleStep

/-- The instance with the default values of 00_scope.md R4. -/
def default : Params := ⟨RawParams.default, by decide⟩

end Params

end Sys2Proof
end

