-- ==== Sys2Proof/Decode.lean ====
section
/-! DEFINITION. The command word: decoder, total on every word and rejecting by name, and encoder
(30_encoding.md R80 to R83). -/

namespace Sys2Proof

/-- Why a word is no command (30_encoding.md R83). -/
inductive DecodeReject where
  /-- `op` is not one of the sixteen. -/
  | unknownOpcode (op : Byte)
  /-- `op` is a command's, and a bit its format marks "zero" is not 0. -/
  | nonzeroField (op : Byte)
deriving DecidableEq, Repr

/-- What the decoder answers. -/
inductive Decoded where
  | instr (i : Instr)
  | reject (why : DecodeReject)
deriving DecidableEq, Repr

/-- Bits 31:24 (R80). -/
def opField (w : Word) : Byte := w.extractLsb' 24 8
/-- Bits 23:16, zero in every format (R80). -/
def zeroField (w : Word) : Byte := w.extractLsb' 16 8
/-- `imm1`, bits 15:8 (R81). -/
def imm1 (w : Word) : Byte := w.extractLsb' 8 8
/-- `imm0`, bits 7:0 (R81). -/
def imm0 (w : Word) : Byte := w.extractLsb' 0 8

/-- Format Z: bits 23:0 must be zero (R80). -/
def formatZ (w : Word) (i : Instr) : Decoded :=
  if zeroField w = 0 ∧ imm1 w = 0 ∧ imm0 w = 0 then .instr i else .reject (.nonzeroField (opField w))

/-- Format A: bits 23:8 must be zero, one immediate (R80). -/
def formatA (w : Word) (i : Byte → Instr) : Decoded :=
  if zeroField w = 0 ∧ imm1 w = 0 then .instr (i (imm0 w)) else .reject (.nonzeroField (opField w))

/-- Format B: bits 23:16 must be zero, two immediates in the order `imm0`, `imm1` (R80). -/
def formatB (w : Word) (i : Byte → Byte → Instr) : Decoded :=
  if zeroField w = 0 then .instr (i (imm0 w) (imm1 w)) else .reject (.nonzeroField (opField w))

/-- The opcode map of R82 with the zero check of R83. -/
def decode (w : Word) : Decoded :=
  match (opField w).toNat with
  | 0x00 => formatZ w .nop
  | 0x01 => formatZ w .pbuild
  | 0x02 => formatA w .gqry
  | 0x03 => formatZ w .pblend4
  | 0x10 => formatA w .sample
  | 0x11 => formatB w .sampleb
  | 0x20 => formatZ w .rsweep
  | 0x21 => formatZ w .rsweepg
  | 0x22 => formatZ w .rleader
  | 0x23 => formatZ w .rdist
  | 0x24 => formatZ w .rconfetti
  | 0x25 => formatZ w .rjuggle
  | 0x26 => formatZ w .rsinelon
  | 0x27 => formatZ w .rcandle
  | 0x30 => formatA w .fade
  | 0x31 => formatA w .glitter
  | _    => .reject (.unknownOpcode (opField w))

/-- The opcode of a command (R82). -/
def opcode : Instr → Byte
  | .nop         => 0x00
  | .pbuild      => 0x01
  | .gqry _      => 0x02
  | .pblend4     => 0x03
  | .sample _    => 0x10
  | .sampleb _ _ => 0x11
  | .rsweep      => 0x20
  | .rsweepg     => 0x21
  | .rleader     => 0x22
  | .rdist       => 0x23
  | .rconfetti   => 0x24
  | .rjuggle     => 0x25
  | .rsinelon    => 0x26
  | .rcandle     => 0x27
  | .fade _      => 0x30
  | .glitter _   => 0x31

/-- The four bytes of a command word, most significant first (R80). -/
def packCommand (op i1 i0 : Byte) : Word := op ++ (0 : Byte) ++ i1 ++ i0

/-- The command word of a command (R80 to R82). -/
def encode (i : Instr) : Word :=
  match i with
  | .gqry pos        => packCommand (opcode i) 0 pos
  | .sample idx      => packCommand (opcode i) 0 idx
  | .sampleb idx bri => packCommand (opcode i) bri idx
  | .fade amt        => packCommand (opcode i) 0 amt
  | .glitter chance  => packCommand (opcode i) 0 chance
  | .nop       => packCommand (opcode i) 0 0
  | .pbuild    => packCommand (opcode i) 0 0
  | .pblend4   => packCommand (opcode i) 0 0
  | .rsweep    => packCommand (opcode i) 0 0
  | .rsweepg   => packCommand (opcode i) 0 0
  | .rleader   => packCommand (opcode i) 0 0
  | .rdist     => packCommand (opcode i) 0 0
  | .rconfetti => packCommand (opcode i) 0 0
  | .rjuggle   => packCommand (opcode i) 0 0
  | .rsinelon  => packCommand (opcode i) 0 0
  | .rcandle   => packCommand (opcode i) 0 0

/-- The command word whose low `nbits` bits are those of `w` and whose other bits are 0. Every command is one word
(R80), and `CMD` takes a whole word, so there is no byte order to lay it out in (20_memory.md R62). -/
def tableWord (nbits w : Nat) : Word := BitVec.ofNat 32 (w % 2 ^ nbits)

/-- What the decoder reads from a row of spec/opcode_table.json. -/
def decodeTableWord (nbits w : Nat) : Option Instr :=
  match decode (tableWord nbits w) with
  | .instr i  => some i
  | .reject _ => none

end Sys2Proof
end

