-- ==== Sys2Proof/Machine/Arith.lean ====
section
/-! DEFINITION. The arithmetic primitives, the only arithmetic the block does (00_scope.md, section 7), and the
packing of colours and control points in words (R6). Every primitive is computed exactly on natural numbers and
narrowed once at the end. -/

namespace Sys2Proof.Machine

/-- `Lerp(a, b, w, D) = (a*(D - w) + b*w) div D` (00_scope.md R7). -/
def lerp (a b : Byte) (w D : Nat) : Byte := BitVec.ofNat 8 ((a.toNat * (D - w) + b.toNat * w) / D)

/-- `LerpC`: `Lerp` per channel (R7). -/
def lerpC (A B : Colour) (w D : Nat) : Colour := ⟨lerp A.r B.r w D, lerp A.g B.g w D, lerp A.b B.b w D⟩

/-- `Scale(c, s) = (c*s) div 255` (R8). The factor is an 8-bit number. -/
def scale (c : Byte) (s : Nat) : Byte := BitVec.ofNat 8 (c.toNat * s / 255)

/-- `ScaleC`: `Scale` per channel (R8). -/
def scaleC (C : Colour) (s : Nat) : Colour := ⟨scale C.r s, scale C.g s, scale C.b s⟩

/-- `AddSat(a, b) = min(255, a + b)` (R9). -/
def addSat (a b : Byte) : Byte := BitVec.ofNat 8 (min 255 (a.toNat + b.toNat))

/-- `AddSatC`: `AddSat` per channel (R9). -/
def addSatC (A B : Colour) : Colour := ⟨addSat A.r B.r, addSat A.g B.g, addSat A.b B.b⟩

/-- The larger of two channels (R10); "not the bitwise OR of the bytes". -/
def maxByte (a b : Byte) : Byte := BitVec.ofNat 8 (max a.toNat b.toNat)

/-- `MaxC`: the larger channel, per channel (R10). -/
def maxC (A B : Colour) : Colour := ⟨maxByte A.r B.r, maxByte A.g B.g, maxByte A.b B.b⟩

/-- The colour `(g, g, g)` (42_overlays.md R143(b)). -/
def grey (g : Nat) : Colour := ⟨BitVec.ofNat 8 g, BitVec.ofNat 8 g, BitVec.ofNat 8 g⟩

/-- A colour in a word: `{0x00, r, g, b}` (R6). -/
def packColour (c : Colour) : Word := (0 : Byte) ++ c.r ++ c.g ++ c.b

/-- The colour a written word names; bits 31:24 are ignored (10_state.md R26, R30). -/
def unpackColour (v : Word) : Colour := ⟨v.extractLsb' 16 8, v.extractLsb' 8 8, v.extractLsb' 0 8⟩

/-- A control point in a word: `{pos, r, g, b}` (R6). -/
def packControlPoint (c : ControlPoint) : Word := c.pos ++ c.rgb.r ++ c.rgb.g ++ c.rgb.b

/-- The control point a written word names (10_state.md R28). -/
def unpackControlPoint (v : Word) : ControlPoint := ⟨v.extractLsb' 24 8, unpackColour v⟩

/-- A valid bit in bit 31 over a 16-bit value: `{v, 0[30:16], x}`, all zero when `v = 0` (10_state.md R31, R32). -/
def packValid : Option Half → Word
  | none   => 0
  | some x => (1 : BitVec 1) ++ (0 : BitVec 15) ++ x

end Sys2Proof.Machine
end

