-- ==== Sys2Proof/Machine/State.lean ====
section
/-! DEFINITION. The state of the block as plain data, why a step can stop, and the state after reset
(10_state.md R20 to R38). -/

namespace Sys2Proof.Machine

/-- Why the machine stops. The block's own faults (60_exceptions.md R170) are NEXT states and not among these. -/
inductive Fault where
  /-- Raised by `step` alone, never by a command: a command waits for a draw that never comes, so the host port
  answers nothing any more (20_memory.md R66, 93_implementation_defined.md U8). Safe: nothing further happens. -/
  | hostPortStuck
deriving DecidableEq, Repr

/-- Why a command has no meaning. -/
inductive Refusal where
  /-- Raised by `exec` for a command the model gives no meaning yet; no arm raises it now. Safe. -/
  | notModelled (mnemonic : String)
deriving DecidableEq, Repr

/-- What can reach the block from outside (20_memory.md R60, 70_reset_and_hazards.md R190). -/
inductive PortEvent where
  /-- `MemRead(a, 4)` (20_memory.md R63). -/
  | read (a : Addr)
  /-- `MemWrite(a, 4, v)` (20_memory.md R64). -/
  | write (a : Addr) (v : Word)
  /-- The `rst` input (70_reset_and_hazards.md R190). -/
  | rst
deriving DecidableEq, Repr

/-- The random source as the block meets it (00_scope.md R11, 20_memory.md R74; log 3). It is outside the block. -/
structure Source where
  /-- The words it is going to give, in order; after them it gives free values, or nothing if `silent`. -/
  answers : List Nat
  /-- It never answers once `answers` is used up (93_implementation_defined.md U8; log 4). -/
  silent  : Bool
  /-- The bounds the block has presented to it so far, oldest first. -/
  asked   : List Nat
deriving DecidableEq, Repr

/-- All state of the block (10_state.md R20), then its parameters, then the model's own fields. -/
structure State where
  /-- `GINDEX` (R22). -/
  gindex   : Byte
  /-- `FRAME` (R23). -/
  frame    : Word
  /-- `CPCNT` (R24). -/
  cpcnt    : Byte
  /-- `RESULT` (R25). -/
  result   : Colour
  /-- `BEAT[0..7]` (R29). -/
  beat     : List Half
  /-- `LUT[0..15]` (R26). -/
  lut      : List Colour
  /-- `LUTV` (R27). -/
  lutv     : Half
  /-- `CP[0..CPMAX-1]` (R28). -/
  cp       : List ControlPoint
  /-- `PIX[0..N-1]` (R30). -/
  pix      : List Colour
  /-- `GLH[0..17]`: `none` is `v = 0`, `some idx` is `v = 1` (R31). -/
  glh      : List (Option Half)
  /-- `SPREV`: `none` is `v = 0`, `some pos` is `v = 1` (R32). -/
  sprev    : Option Half
  /-- `STATUS.BUSY` (R33). -/
  busy     : Bool
  /-- `STATUS.FAULT` (R33). -/
  fault    : Bool
  /-- `STATUS.FCODE` (R33). -/
  fcode    : BitVec 4
  /-- `STATUS.FINFO` (R33). -/
  finfo    : Half
  /-- `FAULTCMD` (R34). -/
  faultcmd : Word
  /-- The parameters of this instance; no step changes them (00_scope.md R4; log 1). -/
  params   : Params
  /-- Model: the requests the host is going to make, oldest first (log 2). -/
  host     : List PortEvent
  /-- Model: the word the last request was answered with, if it was a read (20_memory.md R60; log 2). -/
  answer   : Option Word
  /-- Model: the random source (log 3). -/
  source   : Source
  /-- Model: how many free memory values have been used (log 5, log 6). -/
  fresh    : Nat
deriving DecidableEq, Repr

/-- The colour a 24-bit free value is. -/
def freeColour (v : BitVec 24) : Colour := ⟨v.extractLsb' 16 8, v.extractLsb' 8 8, v.extractLsb' 0 8⟩

/-- The control point a 32-bit free value is. -/
def freeControlPoint (v : BitVec 32) : ControlPoint :=
  ⟨v.extractLsb' 24 8, v.extractLsb' 16 8, v.extractLsb' 8 8, v.extractLsb' 0 8⟩

/-- The state reset number `epoch` leaves in an instance with parameters `p` (10_state.md R38): registers zero or
empty, the contents of `CP`, `LUT` and `PIX` free values. -/
def State.resetOf (p : Params) (epoch : Nat) : State where
  gindex   := 0
  frame    := 0
  cpcnt    := 0
  result   := .black
  beat     := List.replicate 8 0
  lut      := (List.range 16).map fun k => freeColour (Config.powerOnLut epoch k)
  lutv     := 0
  cp       := (List.range p.cpmax).map fun j => freeControlPoint (Config.powerOnCp epoch j)
  pix      := (List.range p.n).map fun i => freeColour (Config.powerOnPix epoch i)
  glh      := List.replicate 18 none
  sprev    := none
  busy     := false
  fault    := false
  fcode    := 0
  finfo    := 0
  faultcmd := 0
  params   := p
  host     := []
  answer   := none
  source   := { answers := [], silent := false, asked := [] }
  fresh    := epoch + 1

/-- The machine right after reset: the instance with the default parameters of 00_scope.md R4 (log 1). -/
def State.reset : State := State.resetOf Params.default 0

end Sys2Proof.Machine
end

