-- ==== Sys2Proof/Machine/Ops.lean ====
section
/-! DEFINITION. The shared operations: element reads and writes, fault entry, the random port, the frame every command
runs in, and reset. -/

namespace Sys2Proof.Machine

/-! ### Memories: one canonical form -/

/-- The memories hold exactly the elements the map gives them (10_state.md R20). Element number is list position, so
two equal memories are equal data (log 7). -/
def Memory.wf (s : State) : Bool :=
  decide (s.lut.length = 16) && decide (s.cp.length = s.params.cpmax) && decide (s.pix.length = s.params.n)

/-- `PIX[i]`, and `BLACK` where there is no such element (log 12). -/
def pixAt (pix : List Colour) (i : Nat) : Colour := pix.getD i .black

/-- `LUT[k]` (log 12). -/
def lutAt (lut : List Colour) (k : Nat) : Colour := lut.getD k .black

/-- `CP[j]` (log 12). -/
def cpAt (cp : List ControlPoint) (j : Nat) : ControlPoint := cp.getD j ⟨0, .black⟩

/-- `BEAT[d]` (log 12). -/
def beatAt (s : State) (d : Nat) : Nat := (s.beat.getD d 0).toNat

/-- `PIX[i] <- f(PIX[i])`. -/
def updatePixel (pix : List Colour) (i : Nat) (f : Colour → Colour) : List Colour := pix.set i (f (pixAt pix i))

/-- `for i in 0..N-1: PIX[i] <- f(i)` (41_sampler.md R123: ascending, each by overwriting). -/
def paint (s : State) (f : Nat → Colour) : List Colour := (List.range s.params.n).map f

/-! ### Fault entry (60_exceptions.md R171, R172) -/

/-- The faults of 60_exceptions.md R171. -/
inductive FaultCode where
  | eOpcode
  | eCpcount
  | eCporder
  | eNopal
  | ePixrange
  | eBeatrange
  | eNoinit
  | eAddr
deriving DecidableEq, Repr

/-- The value `FCODE` records (R171). -/
def faultNumber : FaultCode → BitVec 4
  | .eOpcode    => 1
  | .eCpcount   => 2
  | .eCporder   => 3
  | .eNopal     => 4
  | .ePixrange  => 5
  | .eBeatrange => 6
  | .eNoinit    => 7
  | .eAddr      => 8

/-- `raise Fault(code, info)` "does exactly this, and only when `STATUS.FAULT = 0`" (R172); `word` is the command
word, or 0 for `E_ADDR`. There is no return from it but reset (R173). -/
def raiseFault (code : FaultCode) (info : Nat) (word : Word) (s : State) : State :=
  if s.fault then s
  else { s with fault := true, fcode := faultNumber code, finfo := BitVec.ofNat 16 info, faultcmd := word }

/-! ### The random port (00_scope.md R11, 20_memory.md R74; log 3) -/

/-- The word the source gives at the `k`-th exchange from now: a listed one, then a free value. -/
def sourceWord (src : Source) (k : Nat) : Nat :=
  match src.answers[k]? with
  | some w => w
  | none   => Config.freeDraw (src.asked.length + k)

/-- The answer of the `k`-th exchange from now when the block presents the bound `n`: "one integer `r` with
`0 <= r < n`". The source reduces its word; every such `r` can come back. -/
def draw (src : Source) (k n : Nat) : Nat := sourceWord src k % n

/-- The source after the block has presented these bounds, in this order. -/
def afterDraws (src : Source) (bounds : List Nat) : Source :=
  { src with answers := src.answers.drop bounds.length, asked := src.asked ++ bounds }

/-- Whether the source answers `k` more exchanges: always, unless it falls silent (20_memory.md R66). -/
def answersAll (src : Source) (k : Nat) : Bool := !src.silent || decide (k ≤ src.answers.length)

/-- The source when a command waits for an exchange it does not answer: the command has presented the bounds of the
answered exchanges and the one after them, and has taken every answer there was (log 4). -/
def afterSilence (src : Source) (bounds : List Nat) : Source := afterDraws src (bounds.take (src.answers.length + 1))

/-! ### The frame of every command -/

/-- The block while a command waits for an exchange without an answer (20_memory.md R66; log 4). -/
def hang (bounds : List Nat) (s : State) : State :=
  { s with busy := true, source := afterSilence s.source bounds }

/-- Run command `i`: nothing while `FAULT = 1` (60_exceptions.md R173); else its checks, "before the command's first
write and first draw" (R172); else its effect, if the source answers the exchanges of its `bounds`; else the command
never completes: what its pseudocode does before the exchange without an answer has been done (`waiting`), the answers
there were have been taken (20_memory.md R70, R74), and the block stays busy (R66; log 4). `FAULTCMD` gets the whole
command word, which `encode i` is (30_encoding.md R83: each command has one word; log 9). -/
def runCommand (i : Instr) (check : State → Option (FaultCode × Nat)) (bounds : State → List Nat)
    (waiting effect : State → State) (s : State) : Host.Outcome State Fault Refusal :=
  if s.fault then .next s
  else match check s with
    | some (code, info) => .next (raiseFault code info (encode i) s)
    | none =>
      if answersAll s.source (bounds s).length then .next (effect s)
      else .next (hang (bounds s) (waiting s))

/-- A command with no check of its own. -/
def noCheck (_ : State) : Option (FaultCode × Nat) := none

/-- The bounds of a command that makes no draw. -/
def noDraw (_ : State) : List Nat := []

/-- A command that makes no draw waits for none. -/
def noWait (s : State) : State := s

/-! ### Reset (70_reset_and_hazards.md R190, 10_state.md R38) -/

/-- The `rst` input: every register its reset value, the memories unspecified anew, a command in progress abandoned.
The host and the random source are outside the block and keep what they hold (log 8). -/
def assertReset (s : State) : State :=
  { State.resetOf s.params s.fresh with host := s.host, source := s.source }

end Sys2Proof.Machine
end

