-- ==== Sys2Proof/Machine/Flags.lean ====
section
/-! DEFINITION. The status register and its views (10_state.md R33), the outputs (20_memory.md R60), and the checks
that decide whether a command raises a fault (60_exceptions.md R171 to R181). "These are the only flags of the block"
(R33). -/

namespace Sys2Proof.Machine

/-! ### STATUS -/

/-- `PVALID`: "a view, 1 exactly when `LUTV == 0xFFFF`" (R33). -/
def pvalid (s : State) : Bool := decide (s.lutv = 0xFFFF)

/-- `SINIT`: "a view, equal to `SPREV.v`" (R33). -/
def sinit (s : State) : Bool := s.sprev.isSome

/-- The word `STATUS` is: `FINFO` 31:16, zero 15:8, `FCODE` 7:4, `SINIT` 3, `PVALID` 2, `FAULT` 1, `BUSY` 0 (R33). -/
def statusWord (s : State) : Word :=
  s.finfo ++ (0 : Byte) ++ s.fcode ++ BitVec.ofBool (sinit s) ++ BitVec.ofBool (pvalid s) ++ BitVec.ofBool s.fault
    ++ BitVec.ofBool s.busy

/-- The level output `busy`, "equal to `STATUS.BUSY`" (20_memory.md R60). -/
def State.busyPin (s : State) : Bool := (statusWord s).getLsbD 0

/-- The level output `fault`, "equal to `STATUS.FAULT`" (20_memory.md R60). -/
def State.faultPin (s : State) : Bool := (statusWord s).getLsbD 1

/-! ### The checks, in the order of 60_exceptions.md R181 -/

/-- `CheckPal`: `if LUTV != 0xFFFF : raise Fault(E_NOPAL, LUTV)` (41_sampler.md R120). -/
def checkPal (s : State) : Option (FaultCode × Nat) :=
  if s.lutv = 0xFFFF then none else some (.eNopal, s.lutv.toNat)

/-- The anchor check of `PBLEND4` (40_palette_build.md R105). -/
def checkAnchors (s : State) : Option (FaultCode × Nat) :=
  if s.lutv.getLsbD 0 = false ∨ s.lutv.getLsbD 4 = false ∨ s.lutv.getLsbD 8 = false ∨ s.lutv.getLsbD 12 = false then
    some (.eNopal, s.lutv.toNat)
  else none

/-- The lowest `j` in `1..n-1` with `CP[j].pos <= CP[j-1].pos` (40_palette_build.md R102). -/
def firstDisorder (cp : List ControlPoint) (n : Nat) : Option Nat :=
  (List.range' 1 (n - 1)).find? fun j => decide ((cpAt cp j).pos.toNat ≤ (cpAt cp (j - 1)).pos.toNat)

/-- `CheckCP` (40_palette_build.md R102): the count first, then the order. -/
def checkCP (s : State) : Option (FaultCode × Nat) :=
  let n := s.cpcnt.toNat
  if n < 2 ∨ s.params.cpmax < n then some (.eCpcount, n)
  else match firstDisorder s.cp n with
    | some j => some (.eCporder, j)
    | none   => none

/-- The checks of `RCANDLE`: palette, then `BEAT[0] + BEAT[1] > 255` (41_sampler.md R128). -/
def checkCandle (s : State) : Option (FaultCode × Nat) :=
  match checkPal s with
  | some f => some f
  | none   => if 255 < beatAt s 0 + beatAt s 1 then some (.eBeatrange, beatAt s 0 + beatAt s 1) else none

/-- The checks of `RJUGGLE`: palette, then the lowest `d` in `1..7` with `BEAT[d] >= N` (42_overlays.md R147). -/
def checkJuggle (s : State) : Option (FaultCode × Nat) :=
  match checkPal s with
  | some f => some f
  | none   =>
    match [1, 2, 3, 4, 5, 6, 7].find? fun d => decide (s.params.n ≤ beatAt s d) with
    | some d => some (.ePixrange, d)
    | none   => none

/-- The checks of `RSINELON`: palette, then `FRAME != 0 and SPREV.v = 0` (42_overlays.md R148). -/
def checkSinelon (s : State) : Option (FaultCode × Nat) :=
  match checkPal s with
  | some f => some f
  | none   => if s.frame ≠ 0 ∧ s.sprev = none then some (.eNoinit, 0) else none

end Sys2Proof.Machine
end

