-- ==== Sys2Proof/Machine/Operands.lean ====
section
/-! DEFINITION. The operands of commands: palette samples and their indices, gradient decoding, the fade stage and the
glitter step (40_palette_build.md R101, 41_sampler.md R121 and R123, 42_overlays.md R141 and R143). A command names no
register and has no addressing mode (30_encoding.md R80, 20_memory.md R73). -/

namespace Sys2Proof.Machine

/-! ### The palette sampler -/

/-- `Sample(i)` on a palette: `hi <- i[7:4]; lo <- i[3:0]; LerpC(LUT[hi], LUT[(hi + 1) mod 16], lo, 16)`
(41_sampler.md R121). -/
def sampleLut (lut : List Colour) (i : Byte) : Colour :=
  let hi := i.toNat / 16
  let lo := i.toNat % 16
  lerpC (lutAt lut hi) (lutAt lut ((hi + 1) % 16)) lo 16

/-- `Idx(off) = (GINDEX + off) mod 256` (41_sampler.md R123). -/
def paletteIndex (s : State) (off : Nat) : Byte := BitVec.ofNat 8 (s.gindex.toNat + off)

/-- `Sample(Idx(off))`. -/
def sampleAt (s : State) (off : Nat) : Colour := sampleLut s.lut (paletteIndex s off)

/-! ### The gradient decoder -/

/-- The index `j` with `p_j <= i < p_(j+1)`; where the list is well-formed and `p_0 <= i < p_(n-1)` it exists and is
unique (40_palette_build.md R101), elsewhere 0 stands for it and nothing uses it (log 12). -/
def bracket (cp : List ControlPoint) (n i : Nat) : Nat :=
  ((List.range (n - 1)).find? fun j =>
    decide ((cpAt cp j).pos.toNat ≤ i) && decide (i < (cpAt cp (j + 1)).pos.toNat)).getD 0

/-- `Decode(i)` of the first `n` control points (40_palette_build.md R101). -/
def decodeGradient (cp : List ControlPoint) (n i : Nat) : Colour :=
  if i ≤ (cpAt cp 0).pos.toNat then (cpAt cp 0).rgb
  else if (cpAt cp (n - 1)).pos.toNat ≤ i then (cpAt cp (n - 1)).rgb
  else
    let j := bracket cp n i
    let p := (cpAt cp j).pos.toNat
    lerpC (cpAt cp j).rgb (cpAt cp (j + 1)).rgb (i - p) ((cpAt cp (j + 1)).pos.toNat - p)

/-! ### Stage 1: fade -/

/-- `Fade(amt)`: `for i in 0..N-1: PIX[i] <- ScaleC(PIX[i], 255 - amt)` (42_overlays.md R141). -/
def fadeAll (amt : Nat) (pix : List Colour) : List Colour := pix.map fun c => scaleC c (255 - amt)

/-! ### Stage 3: glitter (42_overlays.md R143) -/

/-- The light of loop (2) for slot `a`: the slot holds what slot `a - 1` held, and if that is valid its pixel is lit
with `GLIT_B[a]`, added and saturated. The loop runs downwards, so slot `a - 1` still holds its old value when slot `a`
takes it: every slot reads `hist`, the history the loop starts from. -/
def lightSlot (p : Params) (hist : List (Option Half)) (pix : List Colour) (a : Nat) : List Colour :=
  match hist.getD (a - 1) none with
  | none     => pix
  | some idx => updatePixel pix idx.toNat fun c => addSatC c (grey (p.glitB a))

/-- The ages in the order of loop (2): "17 down to 1, oldest first". -/
def agesDown : List Nat := [17, 16, 15, 14, 13, 12, 11, 10, 9, 8, 7, 6, 5, 4, 3, 2, 1]

/-- The history loop (2) starts from: emptied on the first frame of the pattern (step (1)). -/
def glitterHistory (s : State) : List (Option Half) := if s.frame = 0 then List.replicate 18 none else s.glh

/-- Whether step (3) starts a sparkle: `Rand(256) < chance`. -/
def sparkles (s : State) (chance : Nat) : Bool := decide (draw s.source 0 256 < chance)

/-- The bounds a glitter step presents: "one or two per step, `Rand(256)` then, only if a sparkle starts, `Rand(N)`". -/
def glitterBounds (chance : Nat) (s : State) : List Nat := if sparkles s chance then [256, s.params.n] else [256]

/-- What step (3) records in slot 0: a new sparkle at `Rand(N)`, or nothing. -/
def newSlot (chance : Nat) (s : State) : Option Half :=
  if sparkles s chance then some (BitVec.ofNat 16 (draw s.source 1 s.params.n)) else none

/-- Steps (1) and (2) of `GlitterStep` (R143): the pixels lit slot by slot, every slot one older, "the old `GLH[17]` is
dropped". Slot 0 is not written by loop (2): it still holds what it held. -/
def glitterAge (s : State) : State :=
  { s with
    glh := (glitterHistory s).getD 0 none :: (glitterHistory s).take 17
    pix := agesDown.foldl (lightSlot s.params (glitterHistory s)) s.pix }

/-- `GlitterStep(chance)` (R143): the history aged, then slot 0 decided by the draws of step (3). -/
def glitterStep (chance : Nat) (s : State) : State :=
  { glitterAge s with
    glh := newSlot chance s :: (glitterAge s).glh.tail
    source := afterDraws s.source (glitterBounds chance s) }

end Sys2Proof.Machine
end

