-- ==== Sys2Proof/Machine/Sampler.lean ====
section
/-! DEFINITION. The palette sampler and the stateless render commands: SAMPLE, SAMPLEB, RSWEEP, RLEADER, RDIST, RCANDLE
(41_sampler.md). -/

namespace Sys2Proof.Machine

/-- `SAMPLE idx` (41_sampler.md R122): `CheckPal; RESULT <- Sample(idx)`. -/
def execSample (idx : Byte) (s : State) : Host.Outcome State Fault Refusal :=
  runCommand (.sample idx) checkPal noDraw noWait (fun s => { s with result := sampleLut s.lut idx }) s

/-- `SAMPLEB idx, bri` (R124): `CheckPal; RESULT <- ScaleC(Sample(idx), bri)`. -/
def execSampleb (idx bri : Byte) (s : State) : Host.Outcome State Fault Refusal :=
  runCommand (.sampleb idx bri) checkPal noDraw noWait
    (fun s => { s with result := scaleC (sampleLut s.lut idx) bri.toNat }) s

/-- The sweep's buffer: `PIX[i] <- Sample(Idx(7*i))` (R125). -/
def sweepPix (s : State) : List Colour := paint s fun i => sampleAt s (7 * i)

/-- `RSWEEP` (R125). -/
def execRsweep (s : State) : Host.Outcome State Fault Refusal :=
  runCommand .rsweep checkPal noDraw noWait (fun s => { s with pix := sweepPix s }) s

/-- `RLEADER` (R126): `PIX[0] <- Sample(Idx(40))`, `PIX[i] <- Sample(Idx(2*i))` for `i` from 1. -/
def execRleader (s : State) : Host.Outcome State Fault Refusal :=
  runCommand .rleader checkPal noDraw noWait
    (fun s => { s with pix := paint s fun i => if i = 0 then sampleAt s 40 else sampleAt s (2 * i) }) s

/-- `RDIST` (R127): `spread <- 255 div N`, `PIX[i] <- Sample(Idx(spread*i))`. -/
def execRdist (s : State) : Host.Outcome State Fault Refusal :=
  runCommand .rdist checkPal noDraw noWait
    (fun s => { s with pix := paint s fun i => sampleAt s (255 / s.params.n * i) }) s

/-- Pixel `i` of the candle: `bri <- max(beat - r, 0)`, `ScaleC(Sample(Idx(3*i)), bri)`, with `r` the `i`-th draw (R128). -/
def candlePixel (s : State) (i : Nat) : Colour :=
  scaleC (sampleAt s (3 * i)) (beatAt s 0 + beatAt s 1 - draw s.source i 10)

/-- "Draws: exactly `N`, each `Rand(10)`" (R128). -/
def candleBounds (s : State) : List Nat := List.replicate s.params.n 10

/-- `RCANDLE` (R128): one `Rand(10)` per pixel, in pixel order and before the pixel is written, so while it waits the
pixels whose draw was answered have been written and the others not. -/
def execRcandle (s : State) : Host.Outcome State Fault Refusal :=
  runCommand .rcandle checkCandle candleBounds
    (fun s => { s with
      pix := paint s fun i => if i < s.source.answers.length then candlePixel s i else pixAt s.pix i })
    (fun s => { s with pix := paint s (candlePixel s), source := afterDraws s.source (candleBounds s) }) s

end Sys2Proof.Machine
end

