-- ==== Sys2Proof/Machine/Overlays.lean ====
section
/-! DEFINITION. The commands that read the buffer before writing it or carry state from frame to frame: FADE, GLITTER,
RSWEEPG, RCONFETTI, RJUGGLE, RSINELON (42_overlays.md). The stages run in the order of R140. -/

namespace Sys2Proof.Machine

/-- `FADE amt` (42_overlays.md R142): stage 1 on its own. -/
def execFade (amt : Byte) (s : State) : Host.Outcome State Fault Refusal :=
  runCommand (.fade amt) noCheck noDraw noWait (fun s => { s with pix := fadeAll amt.toNat s.pix }) s

/-- `GLITTER chance` (R144): stage 3 on its own. Both draws come after the loop that ages the history. -/
def execGlitter (chance : Byte) (s : State) : Host.Outcome State Fault Refusal :=
  runCommand (.glitter chance) noCheck (glitterBounds chance.toNat) glitterAge (glitterStep chance.toNat) s

/-- The chance of `RSWEEPG`: `min(FRAME div 20, 100)` (R145). -/
def sweepChance (s : State) : Nat := min (s.frame.toNat / 20) 100

/-- `RSWEEPG` (R145): the sweep, then a glitter step. -/
def execRsweepg (s : State) : Host.Outcome State Fault Refusal :=
  runCommand .rsweepg checkPal (fun s => glitterBounds (sweepChance s) s)
    (fun s => glitterAge { s with pix := sweepPix s })
    (fun s => glitterStep (sweepChance s) { s with pix := sweepPix s }) s

/-- The speckle loop of R146: `p <- Rand(N); PIX[p] <- AddSatC(PIX[p], Sample(Idx(16*k)))`, for `k` in `0..cnt-1`. -/
def speckle (s : State) (pix : List Colour) (k : Nat) : List Colour :=
  updatePixel pix (draw s.source k s.params.n) fun c => addSatC c (sampleAt s (16 * k))

/-- `Fade(10)` and the first `cnt` speckles of R146. -/
def confettiPix (s : State) (cnt : Nat) : List Colour := (List.range cnt).foldl (speckle s) (fadeAll 10 s.pix)

/-- "Draws: exactly `cnt`, each `Rand(N)`" (R146). -/
def confettiBounds (s : State) : List Nat := List.replicate (beatAt s 0) s.params.n

/-- `RCONFETTI` (R146): `Fade(10)`, then `BEAT[0]` speckles, each with one draw; while it waits the speckles whose draw
was answered have been added. -/
def execRconfetti (s : State) : Host.Outcome State Fault Refusal :=
  runCommand .rconfetti checkPal confettiBounds
    (fun s => { s with pix := confettiPix s s.source.answers.length })
    (fun s => { s with pix := confettiPix s (beatAt s 0), source := afterDraws s.source (confettiBounds s) }) s

/-- One dot of R147: `PIX[BEAT[d]] <- MaxC(PIX[BEAT[d]], Sample(Idx(JUGGLE_STEP * d)))`. -/
def juggleDot (s : State) (pix : List Colour) (d : Nat) : List Colour :=
  updatePixel pix (beatAt s d) fun c => maxC c (sampleAt s (s.params.juggleStep * d))

/-- `RJUGGLE` (R147): `Fade(20)`, then the dots 1 to 7. -/
def execRjuggle (s : State) : Host.Outcome State Fault Refusal :=
  runCommand .rjuggle checkJuggle noDraw noWait
    (fun s => { s with pix := [1, 2, 3, 4, 5, 6, 7].foldl (juggleDot s) (fadeAll 20 s.pix) }) s

/-- The previous beat position of R148: on the first frame the current one, later `SPREV.pos`. -/
def previousBeat (s : State) : Nat := if s.frame = 0 then beatAt s 0 else (s.sprev.getD 0).toNat

/-- The positions `q` of the trail of R148: `prev+1 .. pos-1` when the beat advanced by more than one,
`pos+1 .. prev-1` when it regressed by more than one, none otherwise. -/
def trailPositions (prev pos : Nat) : List Nat :=
  if prev + 1 < pos then List.range' (prev + 1) (pos - prev - 1)
  else if pos + 1 < prev then List.range' (pos + 1) (prev - pos - 1)
  else []

/-- `RSINELON` (R148): `Fade(20)`, the head pixel, the trail, `SPREV`. -/
def execRsinelon (s : State) : Host.Outcome State Fault Refusal :=
  runCommand .rsinelon checkSinelon noDraw noWait
    (fun s =>
      let pos := beatAt s 0
      let col := sampleAt s 0
      let head := (fadeAll 20 s.pix).set (pos % s.params.n) col
      { s with
        pix := (trailPositions (previousBeat s) pos).foldl (fun pix q => pix.set (q % s.params.n) col) head
        sprev := some (BitVec.ofNat 16 pos) }) s

end Sys2Proof.Machine
end

