-- ==== Sys2Proof/Machine/Palette.lean ====
section
/-! DEFINITION. The palette table commands: NOP, PBUILD, GQRY, PBLEND4 (40_palette_build.md). -/

namespace Sys2Proof.Machine

/-- `NOP` (40_palette_build.md R100): no effect. -/
def execNop (s : State) : Host.Outcome State Fault Refusal := runCommand .nop noCheck noDraw noWait id s

/-- `PBUILD` (R103): `for k in 0..15: LUT[k] <- Decode(16*k)`, `LUTV <- 0xFFFF`. -/
def execPbuild (s : State) : Host.Outcome State Fault Refusal :=
  runCommand .pbuild checkCP noDraw noWait
    (fun s => { s with
      lut := (List.range 16).map fun k => decodeGradient s.cp s.cpcnt.toNat (16 * k)
      lutv := 0xFFFF }) s

/-- `GQRY pos` (R104): `RESULT <- Decode(pos)`. -/
def execGqry (pos : Byte) (s : State) : Host.Outcome State Fault Refusal :=
  runCommand (.gqry pos) checkCP noDraw noWait
    (fun s => { s with result := decodeGradient s.cp s.cpcnt.toNat pos.toNat }) s

/-- The blend weights `W[1] = 128`, `W[2] = 224`, `W[3] = 255` (R105; 90_conflicts.md C5). -/
def blendWeight : Nat → Nat
  | 1 => 128
  | 2 => 224
  | _ => 255

/-- Entry `4*m + t` of the blended palette, from the anchors `c[0..3]` (R105): the anchors are not written, slots
between two anchors are blends, the last three follow `BLEND4_TAIL`. -/
def blendEntry (tail : Blend4Tail) (lut : List Colour) (k : Nat) : Colour :=
  let m := k / 4
  let t := k % 4
  if t = 0 then lutAt lut k
  else if m < 3 then lerpC (lutAt lut (4 * m)) (lutAt lut (4 * (m + 1))) (blendWeight t) 255
  else match tail with
    | .wrap => lerpC (lutAt lut 12) (lutAt lut 0) (blendWeight t) 255
    | .hold => lutAt lut 12

/-- `PBLEND4` (R105). -/
def execPblend4 (s : State) : Host.Outcome State Fault Refusal :=
  runCommand .pblend4 checkAnchors noDraw noWait
    (fun s => { s with lut := (List.range 16).map (blendEntry s.params.blend4Tail s.lut), lutv := 0xFFFF }) s

end Sys2Proof.Machine
end

