-- ==== Sys2Proof/Machine/Dispatch.lean ====
section
/-! DEFINITION. One arm per command: each calls its own meaning (30_encoding.md R82). -/

namespace Sys2Proof.Machine

def exec (i : Instr) (s : State) : Host.Outcome State Fault Refusal :=
  match i with
  | .nop => Sys2Proof.Machine.execNop s
  | .pbuild => Sys2Proof.Machine.execPbuild s
  | .gqry pos => Sys2Proof.Machine.execGqry pos s
  | .pblend4 => Sys2Proof.Machine.execPblend4 s
  | .sample idx => Sys2Proof.Machine.execSample idx s
  | .sampleb idx bri => Sys2Proof.Machine.execSampleb idx bri s
  | .rsweep => Sys2Proof.Machine.execRsweep s
  | .rsweepg => Sys2Proof.Machine.execRsweepg s
  | .rleader => Sys2Proof.Machine.execRleader s
  | .rdist => Sys2Proof.Machine.execRdist s
  | .rconfetti => Sys2Proof.Machine.execRconfetti s
  | .rjuggle => Sys2Proof.Machine.execRjuggle s
  | .rsinelon => Sys2Proof.Machine.execRsinelon s
  | .rcandle => Sys2Proof.Machine.execRcandle s
  | .fade amt => Sys2Proof.Machine.execFade amt s
  | .glitter chance => Sys2Proof.Machine.execGlitter chance s

end Sys2Proof.Machine
end

