-- ==== Sys2Proof/Machine/HostPort.lean ====
section
/-! DEFINITION. The host port: the address map, host reads and writes, accesses the map does not permit, and what the
next request makes the block do (20_memory.md R60 to R66, 10_state.md R20). -/

namespace Sys2Proof.Machine

/-- What a word address names (10_state.md R20). -/
inductive Target where
  | cmd
  | status
  | gindex
  | frame
  | cpcnt
  | result
  | npix
  | lutv
  | beat (d : Nat)
  | lut (k : Nat)
  | glh (a : Nat)
  | sprev
  | faultcmd
  | cp (j : Nat)
  | pix (i : Nat)
deriving DecidableEq, Repr

/-- The address map (R20); `none` is unmapped (20_memory.md R65). -/
def addressMap (p : Params) (addr : Addr) : Option Target :=
  let a := addr.toNat
  if a = 0x000 then some .cmd
  else if a = 0x001 then some .status
  else if a = 0x002 then some .gindex
  else if a = 0x003 then some .frame
  else if a = 0x004 then some .cpcnt
  else if a = 0x005 then some .result
  else if a = 0x006 then some .npix
  else if a = 0x007 then some .lutv
  else if a < 0x010 then some (.beat (a - 0x008))
  else if a < 0x020 then some (.lut (a - 0x010))
  else if a < 0x032 then some (.glh (a - 0x020))
  else if a = 0x032 then some .sprev
  else if a = 0x033 then some .faultcmd
  else if 0x040 ≤ a ∧ a < 0x040 + p.cpmax then some (.cp (a - 0x040))
  else if 0x400 ≤ a ∧ a < 0x400 + p.n then some (.pix (a - 0x400))
  else none

/-- The address of `CMD` (10_state.md R36). -/
def cmdAddr : Addr := 0x000

/-- The address is that of a palette entry nothing has written since reset (10_state.md R27). -/
def readsUnwrittenLut (s : State) (addr : Addr) : Bool :=
  match addressMap s.params addr with
  | some (.lut k) => !s.lutv.getLsbD k
  | _             => false

/-- The word a target reads as, in the layout its rule gives; `none` for `CMD`, which is write-only (10_state.md R22 to
R36). Registers narrower than 32 bits read back zero-extended (20_memory.md R68). -/
def readTarget (s : State) : Target → Option Word
  | .cmd      => none
  | .status   => some (statusWord s)
  | .gindex   => some (s.gindex.setWidth 32)
  | .frame    => some s.frame
  | .cpcnt    => some (s.cpcnt.setWidth 32)
  | .result   => some (packColour s.result)
  | .npix     => some (BitVec.ofNat 32 s.params.n)
  | .lutv     => some (s.lutv.setWidth 32)
  | .beat d   => some ((s.beat.getD d 0).setWidth 32)
  | .lut k    =>
    if s.lutv.getLsbD k then some (packColour (lutAt s.lut k))
    else some ((Config.unwrittenLut s.fresh).setWidth 32)
  | .glh a    => some (packValid (s.glh.getD a none))
  | .sprev    => some (packValid s.sprev)
  | .faultcmd => some s.faultcmd
  | .cp j     => some (packControlPoint (cpAt s.cp j))
  | .pix i    => some (packColour (pixAt s.pix i))

/-- The word a host read of `addr` is answered with now, `none` where the map permits no read (20_memory.md R63, R65). -/
def readWord (s : State) (addr : Addr) : Option Word :=
  match addressMap s.params addr with
  | some t => readTarget s t
  | none   => none

/-- `MemRead(a, 4)`: an answer and no change of the block's state; where the map permits no read, `E_ADDR` and the
answer 0 (20_memory.md R63, R65). -/
def hostRead (addr : Addr) (s : State) : State :=
  match readWord s addr with
  | some w => { s with answer := some w, fresh := if readsUnwrittenLut s addr then s.fresh + 1 else s.fresh }
  | none   => { raiseFault .eAddr addr.toNat 0 s with answer := some 0 }

/-- A write to a target that stores; `none` for a read-only target and for `CMD`, which executes (20_memory.md R64). -/
def writeTarget (s : State) (v : Word) : Target → Option State
  | .gindex => some { s with gindex := v.setWidth 8 }
  | .frame  => some { s with frame := v }
  | .cpcnt  => some { s with cpcnt := v.setWidth 8 }
  | .beat d => some { s with beat := s.beat.set d (v.setWidth 16) }
  | .lut k  => some { s with lut := s.lut.set k (unpackColour v), lutv := s.lutv ||| ((1 : Half) <<< k) }
  | .cp j   => some { s with cp := s.cp.set j (unpackControlPoint v) }
  | .pix i  => some { s with pix := s.pix.set i (unpackColour v) }
  | .cmd | .status | .result | .npix | .lutv | .glh _ | .sprev | .faultcmd => none

/-- `MemWrite(a, 4, v)` to an address other than `CMD`: ignored while `FAULT = 1`, else stored, else `E_ADDR`
(20_memory.md R64, R65; 60_exceptions.md R173). -/
def hostStore (addr : Addr) (v : Word) (s : State) : State :=
  if s.fault then s
  else match (addressMap s.params addr).bind (writeTarget s v) with
    | some t => t
    | none   => raiseFault .eAddr addr.toNat 0 s

/-- What the next request makes the block do. -/
inductive Action where
  /-- The request is over and left this state. -/
  | done (t : State)
  /-- The block executes a command from this state. -/
  | execute (i : Instr) (t : State)
  /-- The host port answers nothing (20_memory.md R66; log 4). -/
  | stuck
deriving DecidableEq, Repr

/-- The state once the block has taken the request at the head and no answer word stands. -/
def takeRequest (rest : List PortEvent) (s : State) : State := { s with host := rest, answer := none }

/-- A write to `CMD`: ignored while `FAULT = 1`; an illegal word raises `Fault(E_OPCODE, 0)`, "decoding comes before
everything else" (60_exceptions.md R176, 30_encoding.md R83); a legal one is executed (10_state.md R36). -/
def commandAction (v : Word) (s : State) : Action :=
  if s.fault then .done s
  else match decode v with
    | .instr i  => .execute i s
    | .reject _ => .done (raiseFault .eOpcode 0 v s)

/-- The next request, one a step, in the order the host issues them (20_memory.md R70). With none the block holds its
state (70_reset_and_hazards.md R191). While a command hangs, only `rst` gets through (20_memory.md R66, R190). -/
def nextAction (s : State) : Action :=
  match s.host with
  | .rst :: rest       => .done (assertReset (takeRequest rest s))
  | .read a :: rest    => if s.busy then .stuck else .done (hostRead a (takeRequest rest s))
  | .write a v :: rest =>
    if s.busy then .stuck
    else if a = cmdAddr then commandAction v (takeRequest rest s)
    else .done (hostStore a v (takeRequest rest s))
  | []                 => if s.busy then .stuck else .done s

end Sys2Proof.Machine
end

