-- ==== Sys2Proof/Machine/Step.lean ====
section
/-! DEFINITION. One step: the block answers the host's next request (20_memory.md R66, R70). -/

namespace Sys2Proof.Machine

/-- One step of the machine: `nextAction` says what the next request does, and a command is executed to completion
(10_state.md R21). -/
def step (s : State) : Host.Outcome State Fault Refusal :=
  match nextAction s with
  | .done t      => .next t
  | .execute i t => exec i t
  | .stuck       => .fault .hostPortStuck

/-- The block fetches nothing (10_state.md R21): its next command is what the host writes to `CMD` next. So the word
stands at the head of the host's requests as a write to `CMD`; the requests after it stay (log 2). -/
def State.withFetchWord (s : State) (nbits w : Nat) : State :=
  { s with host := .write cmdAddr (tableWord nbits w) :: s.host }

end Sys2Proof.Machine
end

