-- ==== Sys2Proof/Machine/Assembler.lean ====
section
/-! DEFINITION. The assembler's statements, what they expand to at the host port, and their one-line spelling
(30_encoding.md R85, R86). Notation for the host; the block never sees it. -/

namespace Sys2Proof.Machine

/-- A statement of R85 or a pseudo-instruction of R86. -/
inductive Stmt where
  | command (i : Instr)
  | wr (a : Addr) (v : Word)
  | rd (a : Addr)
  | ldcp (j : Nat) (pos r g b : Byte)
  | ldlut (k : Nat) (r g b : Byte)
  | ldpix (i : Nat) (r g b : Byte)
  | ramp (r0 g0 b0 r1 g1 b1 : Byte)
  | framestep
deriving DecidableEq, Repr

/-- The word address of a register or of an element of a file (10_state.md R20). -/
def targetAddr : Target → Addr
  | .cmd      => 0x000
  | .status   => 0x001
  | .gindex   => 0x002
  | .frame    => 0x003
  | .cpcnt    => 0x004
  | .result   => 0x005
  | .npix     => 0x006
  | .lutv     => 0x007
  | .beat d   => BitVec.ofNat 12 (0x008 + d)
  | .lut k    => BitVec.ofNat 12 (0x010 + k)
  | .glh a    => BitVec.ofNat 12 (0x020 + a)
  | .sprev    => 0x032
  | .faultcmd => 0x033
  | .cp j     => BitVec.ofNat 12 (0x040 + j)
  | .pix i    => BitVec.ofNat 12 (0x400 + i)

/-- `LDCP j, pos, r, g, b` (R86). -/
def writeCp (j : Nat) (pos r g b : Byte) : PortEvent := .write (targetAddr (.cp j)) (packControlPoint ⟨pos, r, g, b⟩)

/-- A command statement "means `MemWrite(0x000, 4, word)`" (R85). -/
def writeCmd (i : Instr) : PortEvent := .write cmdAddr (encode i)

/-- The accesses a statement stands for (R85, R86). `oldIndex` and `oldFrame` are the words the host has read from
`GINDEX` and `FRAME`, which only `FRAMESTEP` uses. -/
def Stmt.expand (oldIndex oldFrame : Word) : Stmt → List PortEvent
  | .command i => [writeCmd i]
  | .wr a v => [.write a v]
  | .rd a => [.read a]
  | .ldcp j pos r g b => [writeCp j pos r g b]
  | .ldlut k r g b => [.write (targetAddr (.lut k)) (packColour ⟨r, g, b⟩)]
  | .ldpix i r g b => [.write (targetAddr (.pix i)) (packColour ⟨r, g, b⟩)]
  | .ramp r0 g0 b0 r1 g1 b1 =>
    [writeCp 0 0 r0 g0 b0, writeCp 1 255 r1 g1 b1, .write (targetAddr .cpcnt) 2, writeCmd .pbuild]
  | .framestep =>
    [.read (targetAddr .gindex), .read (targetAddr .frame),
     .write (targetAddr .gindex) (oldIndex + 1), .write (targetAddr .frame) (oldFrame + 1)]

/-! ### Spelling (R85) -/

/-- One line as tokens: words, and `,` `[` `]` on their own; "a comment runs from `;` to the end of the line". `word`
is the part of a word already read, last character first. -/
def tokens : List Char → List Char → List String
  | [], word => if word = [] then [] else [String.ofList word.reverse]
  | c :: cs, word =>
    let flushed := if word = [] then [] else [String.ofList word.reverse]
    if c = ';' then flushed
    else if c = ' ' ∨ c = '\t' then flushed ++ tokens cs []
    else if c = ',' ∨ c = '[' ∨ c = ']' then flushed ++ String.ofList [c] :: tokens cs []
    else tokens cs (c :: word)

/-- A digit of a numeral in the given base. -/
def digit (base : Nat) (c : Char) : Option Nat :=
  let v :=
    if '0' ≤ c ∧ c ≤ '9' then c.toNat - '0'.toNat
    else if 'a' ≤ c ∧ c ≤ 'f' then c.toNat - 'a'.toNat + 10
    else if 'A' ≤ c ∧ c ≤ 'F' then c.toNat - 'A'.toNat + 10
    else base
  if v < base then some v else none

/-- The digits of a numeral, most significant first. -/
def digits (base : Nat) : List Char → Nat → Option Nat
  | [], acc => some acc
  | c :: cs, acc =>
    match digit base c with
    | some d => digits base cs (acc * base + d)
    | none   => none

/-- "Numerals are decimal or `0x` hexadecimal" (R85). -/
def numeral (t : String) : Option Nat :=
  match t.toList with
  | []                    => none
  | '0' :: 'x' :: c :: cs => digits 16 (c :: cs) 0
  | cs                    => digits 10 cs 0

/-- Operands "separated by a comma" (R85). -/
def operands : List String → Option (List Nat)
  | []  => some []
  | [t] => (numeral t).map fun n => [n]
  | t :: comma :: rest =>
    if comma = "," ∧ rest ≠ [] then
      match numeral t, operands rest with
      | some n, some ns => some (n :: ns)
      | _, _            => none
    else none

/-- A register by its name (10_state.md R20). -/
def registerNamed (name : String) : Option Target :=
  if name = "CMD" then some .cmd
  else if name = "STATUS" then some .status
  else if name = "GINDEX" then some .gindex
  else if name = "FRAME" then some .frame
  else if name = "CPCNT" then some .cpcnt
  else if name = "RESULT" then some .result
  else if name = "NPIX" then some .npix
  else if name = "LUTV" then some .lutv
  else if name = "SPREV" then some .sprev
  else if name = "FAULTCMD" then some .faultcmd
  else none

/-- An element of a file by the file's name and its number (10_state.md R20; 00_scope.md R4 for the greatest tables). -/
def elementNamed (name : String) (i : Nat) : Option Target :=
  if name = "BEAT" ∧ i < 8 then some (.beat i)
  else if name = "LUT" ∧ i < 16 then some (.lut i)
  else if name = "GLH" ∧ i < 18 then some (.glh i)
  else if name = "CP" ∧ i < 64 then some (.cp i)
  else if name = "PIX" ∧ i < 1024 then some (.pix i)
  else none

/-- An address, numeric or by name, and the tokens after it (R85). -/
def addressOperand : List String → Option (Addr × List String)
  | name :: "[" :: i :: "]" :: rest =>
    match numeral i with
    | some n => (elementNamed name n).map fun t => (targetAddr t, rest)
    | none   => none
  | t :: rest =>
    match registerNamed t, numeral t with
    | some r, _    => some (targetAddr r, rest)
    | none, some n => if n < 4096 then some (BitVec.ofNat 12 n, rest) else none
    | none, none   => none
  | [] => none

/-- Every operand is an 8-bit number. -/
def byteOperands (ns : List Nat) : Option (List Byte) :=
  if ns.all fun n => decide (n < 256) then some (ns.map fun n => BitVec.ofNat 8 n) else none

/-- A command, or a pseudo-instruction with byte operands only, by its mnemonic and operands, "in the order `imm0`,
`imm1`" (R85). -/
def commandNamed (m : String) (ops : List Byte) : Option Stmt :=
  match ops with
  | [] =>
    if m = "NOP" then some (.command .nop)
    else if m = "PBUILD" then some (.command .pbuild)
    else if m = "PBLEND4" then some (.command .pblend4)
    else if m = "RSWEEP" then some (.command .rsweep)
    else if m = "RSWEEPG" then some (.command .rsweepg)
    else if m = "RLEADER" then some (.command .rleader)
    else if m = "RDIST" then some (.command .rdist)
    else if m = "RCONFETTI" then some (.command .rconfetti)
    else if m = "RJUGGLE" then some (.command .rjuggle)
    else if m = "RSINELON" then some (.command .rsinelon)
    else if m = "RCANDLE" then some (.command .rcandle)
    else if m = "FRAMESTEP" then some .framestep
    else none
  | [x] =>
    if m = "GQRY" then some (.command (.gqry x))
    else if m = "SAMPLE" then some (.command (.sample x))
    else if m = "FADE" then some (.command (.fade x))
    else if m = "GLITTER" then some (.command (.glitter x))
    else none
  | [x, y] => if m = "SAMPLEB" then some (.command (.sampleb x y)) else none
  | [r0, g0, b0, r1, g1, b1] => if m = "RAMP" then some (.ramp r0 g0 b0 r1 g1 b1) else none
  | _ => none

/-- The load pseudo-instructions: an element number, then byte operands (R86). -/
def loadNamed (m : String) (i : Nat) (ops : List Byte) : Option Stmt :=
  match ops with
  | [pos, r, g, b] => if m = "LDCP" ∧ i < 64 then some (.ldcp i pos r g b) else none
  | [r, g, b] =>
    if m = "LDLUT" ∧ i < 16 then some (.ldlut i r g b)
    else if m = "LDPIX" ∧ i < 1024 then some (.ldpix i r g b)
    else none
  | _ => none

/-- The mnemonics whose first operand is an element number (R86). -/
def isLoad (m : String) : Bool := m = "LDCP" || m = "LDLUT" || m = "LDPIX"

/-- A statement from the tokens of its line. -/
def parseTokens : List String → Option Stmt
  | "WR" :: rest =>
    match addressOperand rest with
    | some (a, [comma, v]) =>
      match numeral v with
      | some n => if comma = "," ∧ n < 2 ^ 32 then some (.wr a (BitVec.ofNat 32 n)) else none
      | none   => none
    | _ => none
  | "RD" :: rest =>
    match addressOperand rest with
    | some (a, []) => some (.rd a)
    | _            => none
  | m :: rest =>
    match operands rest with
    | none    => none
    | some ns =>
      if isLoad m then
        match ns with
        | i :: xs => (byteOperands xs).bind (loadNamed m i)
        | []      => none
      else (byteOperands ns).bind (commandNamed m)
  | [] => none

/-- "One statement per line" (R85). -/
def parseLine (line : List Char) : Option Stmt := parseTokens (tokens line [])

end Sys2Proof.Machine
end

