-- ==== Sys2Proof/Safety.lean ====
section
/-! DEFINITION. What a good state and a good run are, and the tables of the spec that claims are stated against: the
legal words, what a command may write, what each address permits. -/

namespace Sys2Proof.Safety

open Sys2Proof.Machine

/-! ### Good states and good runs -/

/-- A word some command is encoded as (30_encoding.md R83). -/
def legalWord (w : Word) : Bool :=
  match decode w with
  | .instr _  => true
  | .reject _ => false

/-- Every valid slot of the history names a pixel: "always less than `N` when `v = 1`" (10_state.md R31). -/
def historyInRange (s : State) : Bool :=
  s.glh.all fun slot =>
    match slot with
    | none     => true
    | some idx => decide (idx.toNat < s.params.n)

/-- The invariant of the block: every file has its size, the history names pixels, and the fault registers agree with
each other as 10_state.md R33, R34 and 60_exceptions.md R171 say. -/
structure Inv (s : State) : Prop where
  /-- The memories hold exactly their elements (10_state.md R20). -/
  memory  : Memory.wf s = true
  /-- `BEAT[0..7]` (10_state.md R29). -/
  beats   : s.beat.length = 8
  /-- `GLH[0..17]` (10_state.md R31). -/
  slots   : s.glh.length = 18
  /-- Every valid slot names a pixel (10_state.md R31). -/
  pixels  : historyInRange s = true
  /-- `FCODE`, `FINFO` and `FAULTCMD` are 0 while `FAULT = 0` (10_state.md R33, R34). -/
  clean   : s.fault = false → s.fcode = 0 ∧ s.finfo = 0 ∧ s.faultcmd = 0
  /-- A recorded code is 1 to 8: "Codes 9 to 15 are never recorded" (60_exceptions.md R171). -/
  code    : s.fault = true → 1 ≤ s.fcode.toNat ∧ s.fcode.toNat ≤ 8
  /-- `E_OPCODE` is recorded with a word that is no command (60_exceptions.md R171). -/
  illegal : s.fcode = 1 → legalWord s.faultcmd = false
  /-- The codes 2 to 7 are recorded with the command's word (60_exceptions.md R171). -/
  command : 2 ≤ s.fcode.toNat → s.fcode.toNat ≤ 7 → legalWord s.faultcmd = true
  /-- `E_ADDR` is recorded with no command (10_state.md R34). -/
  access  : s.fcode = 8 → s.faultcmd = 0
  /-- A command that waits for a draw has passed its checks (60_exceptions.md R172). -/
  waiting : s.busy = true → s.fault = false

/-- The host has given the block a palette (70_reset_and_hazards.md R192: "Until `LUTV = 0xFFFF` every sampling command
faults"). -/
def bootReady (s : State) : Bool := pvalid s

/-- "It has ended when the last access has been answered. The end state is good only if `STATUS.FAULT = 0`"
(70_reset_and_hazards.md R206). -/
def goodEnd (t : State) : Bool := t.host.isEmpty && !t.busy && !t.fault

/-- A run of `k` steps from `s` is good when it ends in a good end state (70_reset_and_hazards.md R206). -/
def GoodRun (s : State) (k : Nat) : Prop := ∃ t, Sys2Proof.core.run k s = .next t ∧ goodEnd t = true

/-- "The output of a frame is the content of `PIX[0..N-1]`" (70_reset_and_hazards.md R206). -/
def frameOutput (t : State) : List Colour := t.pix

/-! ### Tables of the spec -/

/-- The state with these fault registers written: what fault entry changes (60_exceptions.md R172). -/
def faulted (code : BitVec 4) (info : Half) (word : Word) (s : State) : State :=
  { s with fault := true, fcode := code, finfo := info, faultcmd := word }

/-- A row of spec/opcode_table.json: the bits that are fixed and their values. -/
structure OpcodeRow where
  mask    : Word
  pattern : Word
deriving DecidableEq, Repr

/-- The rows of spec/opcode_table.json, in its order. -/
def opcodeTable : List OpcodeRow := [
  ⟨0xFFFFFFFF, 0x00000000⟩, ⟨0xFFFFFFFF, 0x01000000⟩, ⟨0xFFFFFF00, 0x02000000⟩, ⟨0xFFFFFFFF, 0x03000000⟩,
  ⟨0xFFFFFF00, 0x10000000⟩, ⟨0xFFFF0000, 0x11000000⟩, ⟨0xFFFFFFFF, 0x20000000⟩, ⟨0xFFFFFFFF, 0x21000000⟩,
  ⟨0xFFFFFFFF, 0x22000000⟩, ⟨0xFFFFFFFF, 0x23000000⟩, ⟨0xFFFFFFFF, 0x24000000⟩, ⟨0xFFFFFFFF, 0x25000000⟩,
  ⟨0xFFFFFFFF, 0x26000000⟩, ⟨0xFFFFFFFF, 0x27000000⟩, ⟨0xFFFFFF00, 0x30000000⟩, ⟨0xFFFFFF00, 0x31000000⟩]

/-- The eight render commands, `R*` of 10_state.md R20. -/
def isRender : Instr → Bool
  | .rsweep | .rsweepg | .rleader | .rdist | .rconfetti | .rjuggle | .rsinelon | .rcandle => true
  | .nop | .pbuild | .gqry _ | .pblend4 | .sample _ | .sampleb _ _ | .fade _ | .glitter _ => false

/-- The commands that begin with `CheckPal` (41_sampler.md R120, 60_exceptions.md R171). -/
def checksPalette : Instr → Bool
  | .sample _ | .sampleb _ _ => true
  | i => isRender i

/-- The column "written by commands" of 10_state.md R20, fault entry apart. -/
def writtenBy (i : Instr) : Target → Bool
  | .result =>
    match i with
    | .gqry _ | .sample _ | .sampleb _ _ => true
    | _ => false
  | .lutv | .lut _ =>
    match i with
    | .pbuild | .pblend4 => true
    | _ => false
  | .glh _ =>
    match i with
    | .glitter _ | .rsweepg => true
    | _ => false
  | .sprev =>
    match i with
    | .rsinelon => true
    | _ => false
  | .pix _ =>
    match i with
    | .fade _ | .glitter _ => true
    | _ => isRender i
  | .cmd | .status | .gindex | .frame | .cpcnt | .npix | .beat _ | .faultcmd | .cp _ => false

/-- The column "raised by" of 60_exceptions.md R171 for the codes a command raises. -/
def mayRaise (i : Instr) (code : BitVec 4) : Bool :=
  match i with
  | .pbuild | .gqry _ => code = 2 || code = 3
  | .pblend4 => code = 4
  | .rjuggle => code = 4 || code = 5
  | .rcandle => code = 4 || code = 6
  | .rsinelon => code = 4 || code = 7
  | .nop | .fade _ | .glitter _ => false
  | .sample _ | .sampleb _ _ | .rsweep | .rsweepg | .rleader | .rdist | .rconfetti => code = 4

/-- Unmapped addresses (20_memory.md R65). -/
def unmapped (p : Params) (a : Addr) : Prop :=
  (0x034 ≤ a.toNat ∧ a.toNat ≤ 0x03F) ∨ (0x040 + p.cpmax ≤ a.toNat ∧ a.toNat ≤ 0x3FF)
    ∨ (0x400 + p.n ≤ a.toNat ∧ a.toNat ≤ 0xFFF)

/-- Read-only addresses (20_memory.md R65): `STATUS`, `RESULT`, `NPIX`, `LUTV`, `GLH[a]`, `SPREV`, `FAULTCMD`. -/
def readOnly (a : Addr) : Prop :=
  a.toNat = 0x001 ∨ a.toNat = 0x005 ∨ a.toNat = 0x006 ∨ a.toNat = 0x007 ∨ (0x020 ≤ a.toNat ∧ a.toNat ≤ 0x031)
    ∨ a.toNat = 0x032 ∨ a.toNat = 0x033

/-- What a register keeps of a written word (20_memory.md R64): its low bits, 8, 16, 24 or 32 of them. -/
def keptBits (t : Target) (v : Word) : Word :=
  match t with
  | .gindex | .cpcnt => v &&& 0x000000FF
  | .beat _          => v &&& 0x0000FFFF
  | .lut _ | .pix _  => v &&& 0x00FFFFFF
  | .cmd | .status | .frame | .result | .npix | .lutv | .glh _ | .sprev | .faultcmd | .cp _ => v

/-- The first `n` control points are a well-formed list (40_palette_build.md R102). -/
def GradientOk (s : State) : Prop :=
  2 ≤ s.cpcnt.toNat ∧ s.cpcnt.toNat ≤ s.params.cpmax ∧
    ∀ j, 1 ≤ j → j < s.cpcnt.toNat → (cpAt s.cp (j - 1)).pos.toNat < (cpAt s.cp j).pos.toNat

/-- The checks of a command pass: what the rules of its section ask before its first write (60_exceptions.md R181). -/
def checksPass (i : Instr) (s : State) : Prop :=
  match i with
  | .nop | .fade _ | .glitter _ => True
  | .pbuild | .gqry _ => GradientOk s
  | .pblend4 => ∀ k, k = 0 ∨ k = 4 ∨ k = 8 ∨ k = 12 → s.lutv.getLsbD k = true
  | .sample _ | .sampleb _ _ | .rsweep | .rsweepg | .rleader | .rdist | .rconfetti => s.lutv = 0xFFFF
  | .rjuggle => s.lutv = 0xFFFF ∧ ∀ d, 1 ≤ d → d ≤ 7 → beatAt s d < s.params.n
  | .rsinelon => s.lutv = 0xFFFF ∧ (s.frame = 0 ∨ s.sprev.isSome = true)
  | .rcandle => s.lutv = 0xFFFF ∧ beatAt s 0 + beatAt s 1 ≤ 255

/-- The draws the rule of each command lists, as the bounds presented in order (41_sampler.md R128, 42_overlays.md R143
to R146): every other command makes none. -/
def drawBounds (i : Instr) (s : State) : List Nat :=
  match i with
  | .rcandle => List.replicate s.params.n 10
  | .rconfetti => List.replicate (beatAt s 0) s.params.n
  | .glitter chance => if draw s.source 0 256 < chance.toNat then [256, s.params.n] else [256]
  | .rsweepg => if draw s.source 0 256 < min (s.frame.toNat / 20) 100 then [256, s.params.n] else [256]
  | .nop | .pbuild | .gqry _ | .pblend4 | .sample _ | .sampleb _ _ | .rsweep | .rleader | .rdist | .rjuggle
  | .rsinelon | .fade _ => []

/-- One frame of the history: the host writes `FRAME`, then a command makes a glitter step of this chance. -/
def glitterFrame (s : State) (step : Nat × Word) : State := glitterStep step.1 { s with frame := step.2 }

/-- One of the three channels of a colour. -/
inductive Channel where
  | red
  | green
  | blue
deriving DecidableEq, Repr

/-- The number a channel of a colour is (00_scope.md, section 6). -/
def chan : Channel → Colour → Nat
  | .red, c   => c.r.toNat
  | .green, c => c.g.toNat
  | .blue, c  => c.b.toNat

end Sys2Proof.Safety
end

