-- ==== Sys2Proof/Certificates/Slice0/Obligations.lean ====
section
/-! DEFINITION. The statements for the provers, one per claim of the spec. A claim names its rules; `next t` is
`Host.Outcome.next t`. -/

open Sys2Proof Sys2Proof.Machine Sys2Proof.Safety

/-! ### Encoding -/

/-- Every command survives encoding and decoding, with every value of every immediate (30_encoding.md R80 to R82). -/
def Obligations.DecodeOfEncodeIsTheCommand : Prop :=
  ∀ i : Instr, i.wellFormed = true → decode (encode i) = .instr i

/-- Every legal word is the one word of its command (30_encoding.md R80 to R83; log 9 rests on it). -/
def Obligations.EncodeOfDecodeIsTheWord : Prop :=
  ∀ (w : Word) (i : Instr), decode w = .instr i → encode i = w

/-- R83, R176: a word is legal exactly when a row of the opcode table admits it; executing any other raises
`Fault(E_OPCODE, 0)` and changes nothing else, whatever the rest of the state; the only no-op is 0x00000000. -/
def Obligations.LegalWordsAndIllegalOnes : Prop :=
  (∀ w : Word, (∃ i, decode w = .instr i) ↔ ∃ row ∈ opcodeTable, w &&& row.mask = row.pattern) ∧
  (∀ w : Word, decode w = .instr .nop ↔ w = 0) ∧
  (∀ (s : State) (w : Word) (rest : List PortEvent),
    s.host = .write 0x000 w :: rest → s.busy = false → s.fault = false →
    (∀ row ∈ opcodeTable, w &&& row.mask ≠ row.pattern) →
    step s = .next (faulted 1 0 w { s with host := rest, answer := none }))

/-- Words of 30_encoding.md R80 to R82 written out bit by bit decode to their commands. -/
def Obligations.WrittenOutWordsDecode : Prop :=
  decode 0b00000000000000000000000000000000 = .instr .nop ∧
  decode 0b00000001000000000000000000000000 = .instr .pbuild ∧
  decode 0b00000010000000000000000010000000 = .instr (.gqry 128) ∧
  decode 0b00010001000000001100100001100100 = .instr (.sampleb 100 200) ∧
  decode 0b00100110000000000000000000000000 = .instr .rsinelon ∧
  decode 0b00110001000000000000000011111111 = .instr (.glitter 255) ∧
  decode 0b00100000000000000000000000000001 = .reject (.nonzeroField 0x20) ∧
  decode 0b00000100000000000000000000000000 = .reject (.unknownOpcode 0x04)

/-! ### Steps -/

/-- A write of a command's word to `CMD` runs that command, the request taken from the host's list (10_state.md R36);
`withFetchWord` puts such a write at the head of the list (log 2). -/
def Obligations.StepRunsTheDecodedCommand : Prop :=
  (∀ (s : State) (w : Word) (i : Instr) (rest : List PortEvent),
    s.host = .write 0x000 w :: rest → s.busy = false → decode w = .instr i →
    step s = exec i { s with host := rest, answer := none }) ∧
  (∀ (s : State) (i : Instr), s.busy = false →
    step (s.withFetchWord 32 (encode i).toNat) = exec i { s with answer := none })

/-- A block with no request holds its state (70_reset_and_hazards.md R191, 60_exceptions.md R185). -/
def Obligations.IdleBlockHoldsItsState : Prop :=
  ∀ s : State, s.host = [] → s.busy = false → step s = .next s

/-- R66, U8, R74: a command whose checks pass finishes if the source answers its draws, having made exactly the
exchanges its rule lists; if the source leaves one of them without an answer, it never finishes and the block stays
busy; a command that is ignored or faults makes no exchange; while the block is busy only reset gets through. How the
source, a hung command (BUSY 1 between steps) and the stuck port are held is the model's choice (log 3, log 4). -/
def Obligations.CommandsFinishOrHangOnTheSource : Prop :=
  (∀ (i : Instr) (s : State), s.fault = false → checksPass i s →
    answersAll s.source (drawBounds i s).length = true →
    ∃ t, exec i s = .next t ∧ t.busy = s.busy ∧ t.fault = false ∧
      t.source.asked = s.source.asked ++ drawBounds i s ∧
      t.source.answers = s.source.answers.drop (drawBounds i s).length ∧ t.source.silent = s.source.silent) ∧
  (∀ (i : Instr) (s : State), s.fault = false → checksPass i s →
    answersAll s.source (drawBounds i s).length = false →
    ∃ t, exec i s = .next t ∧ t.busy = true ∧ t.fault = false ∧
      t.source.asked = s.source.asked ++ (drawBounds i s).take (s.source.answers.length + 1) ∧
      t.source.answers = [] ∧ t.source.silent = true) ∧
  (∀ (i : Instr) (s : State), s.fault = true ∨ ¬ checksPass i s →
    ∃ t, exec i s = .next t ∧ t.busy = s.busy ∧ t.source = s.source) ∧
  (∀ s : State, s.busy = true → (∀ rest, s.host ≠ .rst :: rest) → step s = .fault .hostPortStuck)

/-! ### Invariant, reset, faults -/

/-- Every reset state meets the invariant, of every instance (10_state.md R38). -/
def Obligations.ResetMeetsInvariant : Prop :=
  Inv State.reset ∧ ∀ (p : Params) (epoch : Nat), Inv (State.resetOf p epoch)

/-- Every step from a state that meets the invariant gives one that meets it. -/
def Obligations.StepKeepsInvariant : Prop :=
  ∀ s t : State, Inv s → step s = .next t → Inv t

/-- R38: the reset values of all registers; then no command uses an unwritten `LUT` or `CP` word, and a pixel is simply
read. -/
def Obligations.ResetValues : Prop :=
  ∀ (s : State) (rest : List PortEvent), s.host = .rst :: rest →
    ∃ t, step s = .next t ∧
      t.gindex = 0 ∧ t.frame = 0 ∧ t.cpcnt = 0 ∧ t.result = .black ∧ t.lutv = 0 ∧
      (∀ d, d < 8 → t.beat[d]? = some 0) ∧ (∀ a, a < 18 → t.glh[a]? = some none) ∧ t.sprev = none ∧
      statusWord t = 0 ∧ t.fault = false ∧ t.fcode = 0 ∧ t.finfo = 0 ∧ t.faultcmd = 0 ∧
      (∀ i, checksPalette i = true ∨ i = .pblend4 → exec i t = .next (faulted 4 0 (encode i) t)) ∧
      (∀ i pos, i = .pbuild ∨ i = .gqry pos → exec i t = .next (faulted 2 0 (encode i) t)) ∧
      (∀ a : Addr, 0x400 ≤ a.toNat → a.toNat < 0x400 + t.params.n →
        ∃ c, t.pix[a.toNat - 0x400]? = some c ∧ readWord t a = some (packColour c))

/-- R190: reset may happen at any time, in a frozen or a hung block too, and gives the reset state with the outputs at
0; no other event clears `FAULT`, a bit of `LUTV`, or `SPREV.v`. That the host's further requests and the random source
survive a reset is the model's choice (log 8). -/
def Obligations.ResetAloneClears : Prop :=
  (∀ (s : State) (rest : List PortEvent), s.host = .rst :: rest →
    ∃ t, step s = .next t ∧
      t = { State.resetOf s.params s.fresh with host := rest, source := s.source } ∧
      t.busyPin = false ∧ t.faultPin = false) ∧
  (∀ s t : State, (∀ rest, s.host ≠ .rst :: rest) → step s = .next t →
    (s.fault = true → t.fault = true) ∧
    (∀ k, s.lutv.getLsbD k = true → t.lutv.getLsbD k = true) ∧
    (s.sprev.isSome = true → t.sprev.isSome = true))

/-- R173: while `FAULT = 1` no command executes, every host write is ignored, host reads are answered as usual, and
nothing else but reset leaves the freeze. -/
def Obligations.FrozenBlock : Prop :=
  ∀ s : State, s.fault = true → s.busy = false →
    (∀ i, exec i s = .next s) ∧
    (∀ a v rest, s.host = .write a v :: rest → step s = .next { s with host := rest, answer := none }) ∧
    (∀ a rest, s.host = .read a :: rest →
      ∃ f, step s = .next { s with host := rest, answer := some ((readWord s a).getD 0), fresh := f }) ∧
    (∀ rest, s.host = .rst :: rest → ∃ t, step s = .next t ∧ t.fault = false)

/-- R172: fault entry writes `FAULT`, `FCODE`, `FINFO` and `FAULTCMD` and nothing else (the request apart), raises the
`fault` output, and happens only from `FAULT = 0`; `FAULTCMD` is the word written to `CMD`, or 0 for `E_ADDR`. -/
def Obligations.FaultsArePrecise : Prop :=
  (∀ s t : State, s.fault = false → step s = .next t → t.fault = true →
    ∃ (code : FaultCode) (info : Nat) (word : Word),
      t = faulted (faultNumber code) (BitVec.ofNat 16 info) word { s with host := s.host.tail, answer := t.answer } ∧
      t.faultPin = true ∧
      ((code = .eAddr ∧ word = 0) ∨ (code ≠ .eAddr ∧ s.host.head? = some (.write 0x000 word)))) ∧
  (∀ (s : State) (code : FaultCode) (info : Nat) (word : Word), s.fault = true → raiseFault code info word s = s)

/-- R171: a command raises no code but those the table gives it; `NOP`, `FADE` and `GLITTER` raise none. -/
def Obligations.CommandsRaiseOnlyTheirCodes : Prop :=
  ∀ (i : Instr) (s t : State), s.fault = false → exec i s = .next t → t.fault = true → mayRaise i t.fcode = true

/-- R102, R174: `CheckCP` of `PBUILD` and `GQRY`: the count first, then the lowest out-of-order `j`, and no fault on a
well-formed list. -/
def Obligations.GradientListCheck : Prop :=
  ∀ (s : State) (i : Instr), s.fault = false → (i = .pbuild ∨ ∃ pos, i = .gqry pos) →
    ((s.cpcnt.toNat < 2 ∨ s.params.cpmax < s.cpcnt.toNat) →
      exec i s = .next (faulted 2 (BitVec.ofNat 16 s.cpcnt.toNat) (encode i) s)) ∧
    (∀ j, 2 ≤ s.cpcnt.toNat → s.cpcnt.toNat ≤ s.params.cpmax → 1 ≤ j → j < s.cpcnt.toNat →
      (cpAt s.cp j).pos.toNat ≤ (cpAt s.cp (j - 1)).pos.toNat →
      (∀ k, 1 ≤ k → k < j → (cpAt s.cp (k - 1)).pos.toNat < (cpAt s.cp k).pos.toNat) →
      exec i s = .next (faulted 3 (BitVec.ofNat 16 j) (encode i) s)) ∧
    (GradientOk s → ∃ t, exec i s = .next t ∧ t.fault = false)

/-- R120, R175: the palette check is the first of every command that has it, and `PBLEND4` checks its four anchors. -/
def Obligations.PaletteCheck : Prop :=
  ∀ (s : State) (i : Instr), s.fault = false →
    (checksPalette i = true → s.lutv ≠ 0xFFFF → exec i s = .next (faulted 4 s.lutv (encode i) s)) ∧
    (i = .pblend4 → (∃ k, (k = 0 ∨ k = 4 ∨ k = 8 ∨ k = 12) ∧ s.lutv.getLsbD k = false) →
      exec i s = .next (faulted 4 s.lutv (encode i) s))

/-- R177: `RJUGGLE` reports the lowest dot at or above `N`, after its palette check and before its fade; no other
command raises `E_PIXRANGE`. -/
def Obligations.JuggleRangeCheck : Prop :=
  (∀ (s : State) (d : Nat), s.fault = false → s.lutv = 0xFFFF → 1 ≤ d → d ≤ 7 → s.params.n ≤ beatAt s d →
    (∀ e, 1 ≤ e → e < d → beatAt s e < s.params.n) →
    exec .rjuggle s = .next (faulted 5 (BitVec.ofNat 16 d) 0x25000000 s)) ∧
  (∀ s : State, s.fault = false → s.lutv ≠ 0xFFFF → exec .rjuggle s = .next (faulted 4 s.lutv 0x25000000 s)) ∧
  (∀ (i : Instr) (s t : State), s.fault = false → exec i s = .next t → t.fault = true → t.fcode = 5 → i = .rjuggle)

/-- R178: `RCANDLE` raises `E_BEATRANGE` after its palette check and before its first draw. -/
def Obligations.CandleRangeCheck : Prop :=
  (∀ s : State, s.fault = false → s.lutv = 0xFFFF → 255 < beatAt s 0 + beatAt s 1 →
    exec .rcandle s = .next (faulted 6 (BitVec.ofNat 16 (beatAt s 0 + beatAt s 1)) 0x27000000 s)) ∧
  (∀ s : State, s.fault = false → s.lutv ≠ 0xFFFF → exec .rcandle s = .next (faulted 4 s.lutv 0x27000000 s))

/-- R180: `RSINELON` raises `E_NOINIT` after its palette check. -/
def Obligations.SinelonInitCheck : Prop :=
  (∀ s : State, s.fault = false → s.lutv = 0xFFFF → s.frame ≠ 0 → s.sprev = none →
    exec .rsinelon s = .next (faulted 7 0 0x26000000 s)) ∧
  (∀ s : State, s.fault = false → s.lutv ≠ 0xFFFF → exec .rsinelon s = .next (faulted 4 s.lutv 0x26000000 s))

/-! ### Arithmetic primitives -/

/-- R7: the formula, the document's form of it with the division rounded down, its two ends, its bounds. -/
def Obligations.LerpLaws : Prop :=
  (∀ (a b : Byte) (w D : Nat), w ≤ D → 1 ≤ D → D ≤ 255 →
    (lerp a b w D).toNat = (a.toNat * (D - w) + b.toNat * w) / D ∧
    ((lerp a b w D).toNat : Int) = a.toNat + ((b.toNat : Int) - a.toNat) * w / D ∧
    lerp a b 0 D = a ∧ lerp a b D D = b ∧
    min a.toNat b.toNat ≤ (lerp a b w D).toNat ∧ (lerp a b w D).toNat ≤ max a.toNat b.toNat ∧
    a.toNat * (D - w) + b.toNat * w ≤ 65025 ∧
    ∀ ch A B, chan ch (lerpC A B w D) = (chan ch A * (D - w) + chan ch B * w) / D) ∧
  lerp 255 0 1 16 = 239

/-- R8. -/
def Obligations.ScaleLaws : Prop :=
  (∀ (c s : Byte),
    (scale c s.toNat).toNat = c.toNat * s.toNat / 255 ∧ scale c 255 = c ∧ scale c 0 = 0 ∧ scale 0 s.toNat = 0 ∧
    (scale c s.toNat).toNat ≤ c.toNat ∧ ∀ ch C, chan ch (scaleC C s.toNat) = chan ch C * s.toNat / 255) ∧
  scale 200 245 = 192

/-- R9, and that several adds give the saturated sum, in whatever order. -/
def Obligations.AddSatLaws : Prop :=
  (∀ a b : Byte, (addSat a b).toNat = min 255 (a.toNat + b.toNat)) ∧
  (∀ ch A B, chan ch (addSatC A B) = min 255 (chan ch A + chan ch B)) ∧
  (∀ (a : Byte) (bs : List Byte), (bs.foldl addSat a).toNat = min 255 (a.toNat + (bs.map BitVec.toNat).sum)) ∧
  (∀ (a : Byte) (bs cs : List Byte), bs.Perm cs → bs.foldl addSat a = cs.foldl addSat a) ∧
  addSat 200 90 = 255

/-- R10. -/
def Obligations.MaxLaws : Prop :=
  (∀ ch A B, chan ch (maxC A B) = max (chan ch A) (chan ch B)) ∧
  (∀ A B, maxC A B = maxC B A) ∧ (∀ A B C, maxC (maxC A B) C = maxC A (maxC B C)) ∧ (∀ A, maxC A A = A) ∧
  maxC ⟨0x0F, 0, 0⟩ ⟨0xF0, 0, 0⟩ = ⟨0xF0, 0, 0⟩

/-- R6: the packing of colours and control points. -/
def Obligations.PackingLayout : Prop :=
  ∀ (c : Colour) (p : ControlPoint) (v : Word),
    (packColour c).toNat = c.r.toNat * 2 ^ 16 + c.g.toNat * 2 ^ 8 + c.b.toNat ∧
    (packControlPoint p).toNat =
      p.pos.toNat * 2 ^ 24 + p.rgb.r.toNat * 2 ^ 16 + p.rgb.g.toNat * 2 ^ 8 + p.rgb.b.toNat ∧
    unpackColour (packColour c) = c ∧ unpackControlPoint (packControlPoint p) = p ∧
    packControlPoint (unpackControlPoint v) = v ∧ packColour (unpackColour v) = v &&& 0x00FFFFFF

/-- R11: a draw answers below its bound, every such answer can come back, and listed answers come back in order. That the
source is a list of words reduced modulo the bound is the model's choice (log 3). -/
def Obligations.DrawsAreInRange : Prop :=
  (∀ (src : Source) (k n : Nat), 1 ≤ n → draw src k n < n) ∧
  (∀ (src : Source) (n : Nat) (rs : List Nat), (∀ r ∈ rs, r < n) →
    ∀ k r, rs[k]? = some r → draw { src with answers := rs } k n = r) ∧
  (∀ (src : Source) (bounds : List Nat) (k n : Nat),
    draw (afterDraws src bounds) k n = draw src (bounds.length + k) n)

/-! ### Palette table commands -/

/-- R100. -/
def Obligations.NopHasNoEffect : Prop :=
  encode .nop = 0x00000000 ∧ ∀ s : State, exec .nop s = .next s

/-- R101: `Decode` clamps at both ends, gives an anchor exactly, and elsewhere interpolates between the two points that
bracket the index, which exist and are unique. -/
def Obligations.GradientDecode : Prop :=
  ∀ (s : State) (i : Nat), GradientOk s → i ≤ 255 →
    (i ≤ (cpAt s.cp 0).pos.toNat → decodeGradient s.cp s.cpcnt.toNat i = (cpAt s.cp 0).rgb) ∧
    ((cpAt s.cp (s.cpcnt.toNat - 1)).pos.toNat ≤ i →
      decodeGradient s.cp s.cpcnt.toNat i = (cpAt s.cp (s.cpcnt.toNat - 1)).rgb) ∧
    (∀ j, j < s.cpcnt.toNat → i = (cpAt s.cp j).pos.toNat → decodeGradient s.cp s.cpcnt.toNat i = (cpAt s.cp j).rgb) ∧
    ((cpAt s.cp 0).pos.toNat ≤ i → i < (cpAt s.cp (s.cpcnt.toNat - 1)).pos.toNat →
      ∃! j, j + 1 < s.cpcnt.toNat ∧ (cpAt s.cp j).pos.toNat ≤ i ∧ i < (cpAt s.cp (j + 1)).pos.toNat) ∧
    (∀ j ch, j + 1 < s.cpcnt.toNat → (cpAt s.cp j).pos.toNat ≤ i → i < (cpAt s.cp (j + 1)).pos.toNat →
      chan ch (decodeGradient s.cp s.cpcnt.toNat i) =
        (chan ch (cpAt s.cp j).rgb * ((cpAt s.cp (j + 1)).pos.toNat - i)
          + chan ch (cpAt s.cp (j + 1)).rgb * (i - (cpAt s.cp j).pos.toNat))
          / ((cpAt s.cp (j + 1)).pos.toNat - (cpAt s.cp j).pos.toNat))

/-- R103: `PBUILD` fills all sixteen entries with the gradient at multiples of 16, so that sampling there gives the
gradient back; it changes nothing else; it faults as `CheckCP` says. -/
def Obligations.PbuildFillsThePalette : Prop :=
  encode .pbuild = 0x01000000 ∧
  (∀ s : State, s.fault = false → GradientOk s →
    ∃ t, exec .pbuild s = .next t ∧ t = { s with lut := t.lut, lutv := 0xFFFF } ∧ t.lut.length = 16 ∧
      pvalid t = true ∧
      ∀ k, k < 16 → t.lut[k]? = some (decodeGradient s.cp s.cpcnt.toNat (16 * k)) ∧
        sampleLut t.lut (BitVec.ofNat 8 (16 * k)) = decodeGradient s.cp s.cpcnt.toNat (16 * k)) ∧
  (∀ s : State, s.fault = false → ¬ GradientOk s →
    ∃ code info, (code = 2 ∨ code = 3) ∧ exec .pbuild s = .next (faulted code info 0x01000000 s))

/-- R104. -/
def Obligations.GqryAnswersTheGradient : Prop :=
  (∀ pos : Byte, encode (.gqry pos) = 0x02000000 ||| pos.setWidth 32) ∧
  (∀ (s : State) (pos : Byte), s.fault = false → GradientOk s →
    exec (.gqry pos) s = .next { s with result := decodeGradient s.cp s.cpcnt.toNat pos.toNat }) ∧
  (∀ (s : State) (pos : Byte), s.fault = false → ¬ GradientOk s →
    ∃ code info, (code = 2 ∨ code = 3) ∧
      exec (.gqry pos) s = .next (faulted code info (0x02000000 ||| pos.setWidth 32) s))

/-- "decoding the same control-point list twice yields identical tables" (40_palette_build.md R101; 90_conflicts.md C6;
95_test_vectors.md S2). -/
def Obligations.GradientDecodeIsIdempotent : Prop :=
  ∀ (s t : State) (pos : Byte), s.fault = false → GradientOk s → exec .pbuild s = .next t →
    exec .pbuild t = .next t ∧
    ∃ u v, exec (.gqry pos) s = .next u ∧ exec (.gqry pos) t = .next v ∧ u.result = v.result

/-- R105: the blended palette: the four anchors in place, three blends between neighbours, the last three slots by
`BLEND4_TAIL`; nothing else changes; a missing anchor is a fault. -/
def Obligations.Pblend4BlendsTheAnchors : Prop :=
  encode .pblend4 = 0x03000000 ∧
  (∀ s : State, s.fault = false → s.lut.length = 16 →
    (∀ k, k = 0 ∨ k = 4 ∨ k = 8 ∨ k = 12 → s.lutv.getLsbD k = true) →
    ∃ t, exec .pblend4 s = .next t ∧ t = { s with lut := t.lut, lutv := 0xFFFF } ∧ t.lut.length = 16 ∧
      pvalid t = true ∧
      (∀ m, m < 4 → t.lut[4 * m]? = s.lut[4 * m]?) ∧
      (∀ m, m < 3 →
        t.lut[4 * m + 1]? = some (lerpC (lutAt s.lut (4 * m)) (lutAt s.lut (4 * m + 4)) 128 255) ∧
        t.lut[4 * m + 2]? = some (lerpC (lutAt s.lut (4 * m)) (lutAt s.lut (4 * m + 4)) 224 255) ∧
        t.lut[4 * m + 3]? = s.lut[4 * m + 4]?) ∧
      (s.params.blend4Tail = .wrap →
        t.lut[13]? = some (lerpC (lutAt s.lut 12) (lutAt s.lut 0) 128 255) ∧
        t.lut[14]? = some (lerpC (lutAt s.lut 12) (lutAt s.lut 0) 224 255) ∧ t.lut[15]? = s.lut[0]?) ∧
      (s.params.blend4Tail = .hold → ∀ k, 13 ≤ k → k ≤ 15 → t.lut[k]? = s.lut[12]?)) ∧
  (∀ s : State, s.fault = false → (∃ k, (k = 0 ∨ k = 4 ∨ k = 8 ∨ k = 12) ∧ s.lutv.getLsbD k = false) →
    exec .pblend4 s = .next (faulted 4 s.lutv 0x03000000 s))

/-- Sampling a blended palette at 0, 64, 128 and 192 gives the four colours exactly (90_conflicts.md C1). -/
def Obligations.BlendedPaletteAnchorsSampleExactly : Prop :=
  ∀ s t : State, s.fault = false → exec .pblend4 s = .next t → t.fault = false →
    ∀ m, m < 4 → sampleLut t.lut (BitVec.ofNat 8 (64 * m)) = lutAt s.lut (4 * m)

/-! ### The sampler and the stateless renders -/

/-- R121: the sampling formula per channel, anchors exact, every result between its two entries. -/
def Obligations.SampleInterpolates : Prop :=
  ∀ (lut : List Colour) (i : Byte) (ch : Channel),
    chan ch (sampleLut lut i) =
      (chan ch (lutAt lut (i.toNat / 16)) * (16 - i.toNat % 16)
        + chan ch (lutAt lut ((i.toNat / 16 + 1) % 16)) * (i.toNat % 16)) / 16 ∧
    (i.toNat % 16 = 0 → sampleLut lut i = lutAt lut (i.toNat / 16)) ∧
    min (chan ch (lutAt lut (i.toNat / 16))) (chan ch (lutAt lut ((i.toNat / 16 + 1) % 16))) ≤ chan ch (sampleLut lut i) ∧
    chan ch (sampleLut lut i) ≤ max (chan ch (lutAt lut (i.toNat / 16))) (chan ch (lutAt lut ((i.toNat / 16 + 1) % 16)))

/-- R122. -/
def Obligations.SampleAnswersTheSample : Prop :=
  (∀ idx : Byte, encode (.sample idx) = 0x10000000 ||| idx.setWidth 32) ∧
  (∀ (s : State) (idx : Byte), s.fault = false → s.lutv = 0xFFFF →
    exec (.sample idx) s = .next { s with result := sampleLut s.lut idx }) ∧
  (∀ (s : State) (idx : Byte), s.fault = false → s.lutv ≠ 0xFFFF →
    exec (.sample idx) s = .next (faulted 4 s.lutv (0x10000000 ||| idx.setWidth 32) s))

/-- R124: the sample scaled by the brightness; 255 is `SAMPLE`, 0 is `BLACK`. -/
def Obligations.SamplebScalesTheSample : Prop :=
  (∀ idx bri : Byte, encode (.sampleb idx bri) = 0x11000000 ||| (bri.setWidth 32 <<< 8) ||| idx.setWidth 32) ∧
  (∀ (s : State) (idx bri : Byte), s.fault = false → s.lutv = 0xFFFF →
    ∃ t, exec (.sampleb idx bri) s = .next t ∧ t = { s with result := t.result } ∧
      (∀ ch, chan ch t.result = chan ch (sampleLut s.lut idx) * bri.toNat / 255) ∧
      (bri = 255 → exec (.sample idx) s = .next t) ∧ (bri = 0 → t.result = .black)) ∧
  (∀ (s : State) (idx bri : Byte), s.fault = false → s.lutv ≠ 0xFFFF →
    exec (.sampleb idx bri) s =
      .next (faulted 4 s.lutv (0x11000000 ||| (bri.setWidth 32 <<< 8) ||| idx.setWidth 32) s))

/-- R125: every pixel of the sweep, and nothing but `PIX` changes; the new buffer does not depend on the old one. -/
def Obligations.RsweepPaintsTheSweep : Prop :=
  encode .rsweep = 0x20000000 ∧
  (∀ s : State, s.fault = false → s.lutv = 0xFFFF →
    ∃ t, exec .rsweep s = .next t ∧ t = { s with pix := t.pix } ∧ t.pix.length = s.params.n ∧
      (∀ i, i < s.params.n → t.pix[i]? = some (sampleLut s.lut (BitVec.ofNat 8 ((s.gindex.toNat + 7 * i) % 256)))) ∧
      ∀ old, exec .rsweep { s with pix := old } = .next t) ∧
  (∀ s : State, s.fault = false → s.lutv ≠ 0xFFFF → exec .rsweep s = .next (faulted 4 s.lutv 0x20000000 s))

/-- R126: pixel 0 leads at offset 40, the others follow at offset `2*i`. -/
def Obligations.RleaderPaintsTheLeader : Prop :=
  encode .rleader = 0x22000000 ∧
  (∀ s : State, s.fault = false → s.lutv = 0xFFFF →
    ∃ t, exec .rleader s = .next t ∧ t = { s with pix := t.pix } ∧ t.pix.length = s.params.n ∧
      t.pix[0]? = some (sampleLut s.lut (BitVec.ofNat 8 ((s.gindex.toNat + 40) % 256))) ∧
      ∀ i, 1 ≤ i → i < s.params.n →
        t.pix[i]? = some (sampleLut s.lut (BitVec.ofNat 8 ((s.gindex.toNat + 2 * i) % 256)))) ∧
  (∀ s : State, s.fault = false → s.lutv ≠ 0xFFFF → exec .rleader s = .next (faulted 4 s.lutv 0x22000000 s))

/-- R127: the spread is `255 div N`; above 255 pixels it is 0 and every pixel is `Sample(GINDEX)`. -/
def Obligations.RdistSpreadsThePalette : Prop :=
  encode .rdist = 0x23000000 ∧
  (∀ s : State, s.fault = false → s.lutv = 0xFFFF →
    ∃ t, exec .rdist s = .next t ∧ t = { s with pix := t.pix } ∧ t.pix.length = s.params.n ∧
      ∀ i, i < s.params.n →
        t.pix[i]? = some (sampleLut s.lut (BitVec.ofNat 8 ((s.gindex.toNat + 255 / s.params.n * i) % 256))) ∧
        (255 < s.params.n → t.pix[i]? = some (sampleLut s.lut s.gindex))) ∧
  (∀ s : State, s.fault = false → s.lutv ≠ 0xFFFF → exec .rdist s = .next (faulted 4 s.lutv 0x23000000 s))

/-- R128: one draw of `Rand(10)` per pixel, the brightness the saturated difference, nothing but `PIX` (and the
source) changes. -/
def Obligations.RcandleFlickers : Prop :=
  encode .rcandle = 0x27000000 ∧
  (∀ s : State, s.fault = false → s.lutv = 0xFFFF → beatAt s 0 + beatAt s 1 ≤ 255 →
    answersAll s.source s.params.n = true →
    ∃ t, exec .rcandle s = .next t ∧ t = { s with pix := t.pix, source := t.source } ∧
      t.source.asked = s.source.asked ++ List.replicate s.params.n 10 ∧
      t.source.answers = s.source.answers.drop s.params.n ∧ t.source.silent = s.source.silent ∧
      t.pix.length = s.params.n ∧
      ∀ i ch, i < s.params.n → ∃ c, t.pix[i]? = some c ∧
        chan ch c =
          chan ch (sampleLut s.lut (BitVec.ofNat 8 ((s.gindex.toNat + 3 * i) % 256)))
            * (beatAt s 0 + beatAt s 1 - draw s.source i 10) / 255) ∧
  (∀ s : State, s.fault = false → s.lutv ≠ 0xFFFF → exec .rcandle s = .next (faulted 4 s.lutv 0x27000000 s)) ∧
  (∀ s : State, s.fault = false → s.lutv = 0xFFFF → 255 < beatAt s 0 + beatAt s 1 →
    exec .rcandle s = .next (faulted 6 (BitVec.ofNat 16 (beatAt s 0 + beatAt s 1)) 0x27000000 s))

/-! ### Overlays -/

/-- R141, R142: every channel of every pixel becomes `(c*(255 - amt)) div 255`; 0 changes nothing, 255 makes all
`BLACK`, no channel grows, a nonzero one shrinks when `amt >= 1`, and repeated fading reaches 0. -/
def Obligations.FadeShrinksEveryChannel : Prop :=
  (∀ amt : Byte, encode (.fade amt) = 0x30000000 ||| amt.setWidth 32) ∧
  (∀ (s : State) (amt : Byte), s.fault = false →
    ∃ t, exec (.fade amt) s = .next t ∧ t = { s with pix := t.pix } ∧ t.pix.length = s.pix.length ∧
      (∀ (i : Nat) (c : Colour) (ch : Channel), s.pix[i]? = some c → ∃ c', t.pix[i]? = some c' ∧
        chan ch c' = chan ch c * (255 - amt.toNat) / 255 ∧ chan ch c' ≤ chan ch c ∧
        (1 ≤ amt.toNat → chan ch c ≠ 0 → chan ch c' < chan ch c)) ∧
      (amt = 0 → t = s) ∧ (amt = 255 → ∀ c ∈ t.pix, c = .black)) ∧
  (∀ (amt : Byte) (pix : List Colour), 1 ≤ amt.toNat → ∀ c ∈ (fadeAll amt.toNat)^[255] pix, c = .black)

/-- R143, R144: one glitter step: the history shifted (or emptied on frame 0), each valid slot's pixel lit with the
brightness of its age, saturating, the new slot 0 decided by one draw, a second draw only when a sparkle starts. -/
def Obligations.GlitterStepOfACommand : Prop :=
  (∀ chance : Byte, encode (.glitter chance) = 0x31000000 ||| chance.setWidth 32) ∧
  (∀ (s : State) (chance : Byte), Inv s → s.fault = false →
    answersAll s.source (if draw s.source 0 256 < chance.toNat then 2 else 1) = true →
    ∃ t, exec (.glitter chance) s = .next t ∧ t = { s with glh := t.glh, pix := t.pix, source := t.source } ∧
      t.glh.length = 18 ∧
      t.glh[0]? = some (if draw s.source 0 256 < chance.toNat
        then some (BitVec.ofNat 16 (draw s.source 1 s.params.n)) else none) ∧
      t.source.asked = s.source.asked ++
        (if draw s.source 0 256 < chance.toNat then [256, s.params.n] else [256]) ∧
      t.source.answers = s.source.answers.drop (if draw s.source 0 256 < chance.toNat then 2 else 1) ∧
      t.source.silent = s.source.silent ∧ t.pix.length = s.params.n ∧
      (s.frame = 0 → t.pix = s.pix ∧ ∀ a, 1 ≤ a → a < 18 → t.glh[a]? = some none) ∧
      (s.frame ≠ 0 →
        (∀ a, a < 17 → t.glh[a + 1]? = s.glh[a]?) ∧
        ∀ i ch, i < s.params.n →
          chan ch (pixAt t.pix i) = min 255 (chan ch (pixAt s.pix i) +
            ((List.range' 1 17).map fun a =>
              if s.glh[a - 1]? = some (some (BitVec.ofNat 16 i)) then s.params.glitB a else 0).sum)))

/-- R145: `RSWEEPG` is `RSWEEP`, then `GLITTER` with the chance `min(FRAME div 20, 100)`; without a palette it faults. -/
def Obligations.RsweepgIsSweepThenGlitter : Prop :=
  encode .rsweepg = 0x21000000 ∧
  (∀ s : State, s.fault = false → s.lutv = 0xFFFF →
    answersAll s.source (if draw s.source 0 256 < min (s.frame.toNat / 20) 100 then 2 else 1) = true →
    ∃ t u, exec .rsweep s = .next t ∧
      exec (.glitter (BitVec.ofNat 8 (min (s.frame.toNat / 20) 100))) t = .next u ∧
      exec .rsweepg s = .next u ∧ u = { s with pix := u.pix, glh := u.glh, source := u.source }) ∧
  (∀ s : State, s.fault = false → s.lutv ≠ 0xFFFF → exec .rsweepg s = .next (faulted 4 s.lutv 0x21000000 s))

/-- R146: `Fade(10)`, then `BEAT[0]` speckles added and saturated, exactly one draw of `Rand(N)` each. -/
def Obligations.RconfettiAddsSpeckles : Prop :=
  encode .rconfetti = 0x24000000 ∧
  (∀ s : State, Inv s → s.fault = false → s.lutv = 0xFFFF → answersAll s.source (beatAt s 0) = true →
    ∃ t, exec .rconfetti s = .next t ∧ t = { s with pix := t.pix, source := t.source } ∧
      t.source.asked = s.source.asked ++ List.replicate (beatAt s 0) s.params.n ∧
      t.source.answers = s.source.answers.drop (beatAt s 0) ∧ t.source.silent = s.source.silent ∧
      t.pix.length = s.params.n ∧
      ∀ i ch, i < s.params.n →
        chan ch (pixAt t.pix i) = min 255 (chan ch (pixAt s.pix i) * 245 / 255 +
          ((List.range (beatAt s 0)).map fun k =>
            if draw s.source k s.params.n = i
            then chan ch (sampleLut s.lut (BitVec.ofNat 8 ((s.gindex.toNat + 16 * k) % 256))) else 0).sum)) ∧
  (∀ s : State, s.fault = false → s.lutv ≠ 0xFFFF → exec .rconfetti s = .next (faulted 4 s.lutv 0x24000000 s))

/-- R147: `Fade(20)`, then on each pixel the per-channel maximum of the faded value and all dots there; a dot at or
above `N` is a fault. -/
def Obligations.RjuggleTakesTheMaximum : Prop :=
  encode .rjuggle = 0x25000000 ∧
  (∀ s : State, Inv s → s.fault = false → s.lutv = 0xFFFF → (∀ d, 1 ≤ d → d ≤ 7 → beatAt s d < s.params.n) →
    ∃ t, exec .rjuggle s = .next t ∧ t = { s with pix := t.pix } ∧ t.pix.length = s.params.n ∧
      ∀ i ch, i < s.params.n →
        chan ch (pixAt t.pix i) = ((List.range' 1 7).map fun d =>
          if beatAt s d = i
          then chan ch (sampleLut s.lut (BitVec.ofNat 8 ((s.gindex.toNat + s.params.juggleStep * d) % 256))) else 0).foldl
            max (chan ch (pixAt s.pix i) * 235 / 255)) ∧
  (∀ s : State, s.fault = false → s.lutv ≠ 0xFFFF → exec .rjuggle s = .next (faulted 4 s.lutv 0x25000000 s)) ∧
  (∀ (s : State) (d : Nat), s.fault = false → s.lutv = 0xFFFF → 1 ≤ d → d ≤ 7 → s.params.n ≤ beatAt s d →
    (∀ e, 1 ≤ e → e < d → beatAt s e < s.params.n) →
    exec .rjuggle s = .next (faulted 5 (BitVec.ofNat 16 d) 0x25000000 s))

/-- R148: `Fade(20)`; the head pixel and the pixel of every position strictly between the previous and the current beat
take the colour at `GINDEX`, every other pixel its faded value; `SPREV` takes the current beat; on frame 0 the previous
beat is the current one. -/
def Obligations.RsinelonFillsTheTrail : Prop :=
  encode .rsinelon = 0x26000000 ∧
  (∀ (s : State) (prev : Nat), Inv s → s.fault = false → s.lutv = 0xFFFF →
    (s.frame = 0 ∧ prev = beatAt s 0 ∨ s.frame ≠ 0 ∧ ∃ p, s.sprev = some p ∧ prev = p.toNat) →
    ∃ t, exec .rsinelon s = .next t ∧ t = { s with pix := t.pix, sprev := t.sprev } ∧
      (∃ p, t.sprev = some p ∧ p.toNat = beatAt s 0) ∧ sinit t = true ∧ t.pix.length = s.params.n ∧
      ∀ i, i < s.params.n →
        ((i = beatAt s 0 % s.params.n ∨
            ∃ q, q % s.params.n = i ∧ (prev < q ∧ q < beatAt s 0 ∨ beatAt s 0 < q ∧ q < prev)) →
          t.pix[i]? = some (sampleLut s.lut s.gindex)) ∧
        (¬ (i = beatAt s 0 % s.params.n ∨
            ∃ q, q % s.params.n = i ∧ (prev < q ∧ q < beatAt s 0 ∨ beatAt s 0 < q ∧ q < prev)) →
          ∀ ch, chan ch (pixAt t.pix i) = chan ch (pixAt s.pix i) * 235 / 255)) ∧
  (∀ s : State, s.fault = false → s.lutv ≠ 0xFFFF → exec .rsinelon s = .next (faulted 4 s.lutv 0x26000000 s)) ∧
  (∀ s : State, s.fault = false → s.lutv = 0xFFFF → s.frame ≠ 0 → s.sprev = none →
    exec .rsinelon s = .next (faulted 7 0 0x26000000 s))

/-- "a pixel selected at frame f fades to zero additional brightness contribution exactly 18 frames later (ring buffer
length)" (42_overlays.md R143(a)): after eighteen glitter steps, each with its own chance and in its own frame, nothing of
the old history is left, and after seventeen the sparkle of slot 0 still stands in slot 17. The steps are those `GLITTER`
and `RSWEEPG` make. -/
def Obligations.GlitterForgetsAfterEighteenSteps : Prop :=
  (∀ (s : State) (old : List (Option Half)) (steps : List (Nat × Word)), s.glh.length = 18 → old.length = 18 →
    steps.length = 18 → (∀ x ∈ steps, x.2 ≠ 0) →
    (steps.foldl glitterFrame s).glh = (steps.foldl glitterFrame { s with glh := old }).glh) ∧
  (∀ (s : State) (steps : List (Nat × Word)), s.glh.length = 18 → steps.length = 17 → (∀ x ∈ steps, x.2 ≠ 0) →
    (steps.foldl glitterFrame s).glh[17]? = s.glh[0]?) ∧
  (∀ (s : State) (chance : Byte), s.fault = false →
    answersAll s.source (drawBounds (.glitter chance) s).length = true →
    exec (.glitter chance) s = .next (glitterStep chance.toNat s)) ∧
  (∀ s : State, s.fault = false → s.lutv = 0xFFFF → answersAll s.source (drawBounds .rsweepg s).length = true →
    ∃ t, exec .rsweep s = .next t ∧
      exec .rsweepg s = .next (glitterStep (min (s.frame.toNat / 20) 100) t))

/-- "The commands `RSWEEP`, `RSWEEPG`, `RLEADER`, `RDIST`, `RCANDLE` overwrite every pixel and make the buffer fully
defined" (70_reset_and_hazards.md R200): what they leave does not depend on the old buffer. -/
def Obligations.FullFrameCommandsIgnoreTheOldBuffer : Prop :=
  ∀ (i : Instr) (s t : State) (old : List Colour),
    (i = .rsweep ∨ i = .rsweepg ∨ i = .rleader ∨ i = .rdist ∨ i = .rcandle) →
    s.fault = false → exec i s = .next t → t.fault = false → t.busy = false →
    exec i { s with pix := old } = .next t

/-! ### The host port -/

/-- R65, R179: an access the map does not permit. With `FAULT = 0` it raises `Fault(E_ADDR, a)` and nothing else
changes, a read answers 0; with `FAULT = 1` a read answers 0 and nothing changes. -/
def Obligations.AccessesTheMapDoesNotPermit : Prop :=
  (∀ (s : State) (a : Addr) (rest : List PortEvent), s.busy = false → s.host = .read a :: rest →
    (a = 0x000 ∨ unmapped s.params a) →
    (s.fault = false → step s = .next (faulted 8 (a.setWidth 16) 0 { s with host := rest, answer := some 0 })) ∧
    (s.fault = true → step s = .next { s with host := rest, answer := some 0 })) ∧
  (∀ (s : State) (a : Addr) (v : Word) (rest : List PortEvent), s.busy = false → s.host = .write a v :: rest →
    (readOnly a ∨ unmapped s.params a) → s.fault = false →
    step s = .next (faulted 8 (a.setWidth 16) 0 { s with host := rest, answer := none }))

/-- Every other read is answered with the word standing there and changes no state of the block, also while `FAULT = 1`
(20_memory.md R63, R68); the counter `fresh` is the model's own (log 6). -/
def Obligations.PermittedReadsChangeNothing : Prop :=
  ∀ (s : State) (a : Addr) (rest : List PortEvent), s.busy = false → s.host = .read a :: rest → a ≠ 0x000 →
    ¬ unmapped s.params a →
    ∃ w f, readWord s a = some w ∧ step s = .next { s with host := rest, answer := some w, fresh := f }

/-- What a host read of each register and element returns (10_state.md R22 to R36), the layout of `GLH` and `SPREV` (R31,
R32; PackingLayout and StatusFields give the other layouts), and the number other statements call `beatAt` (R29). -/
def Obligations.ReadLayouts : Prop :=
  ∀ (s : State), Inv s →
    readWord s 0x000 = none ∧ readWord s 0x001 = some (statusWord s) ∧
    readWord s 0x002 = some (s.gindex.setWidth 32) ∧ readWord s 0x003 = some s.frame ∧
    readWord s 0x004 = some (s.cpcnt.setWidth 32) ∧ readWord s 0x005 = some (packColour s.result) ∧
    readWord s 0x006 = some (BitVec.ofNat 32 s.params.n) ∧ readWord s 0x007 = some (s.lutv.setWidth 32) ∧
    readWord s 0x032 = some (packValid s.sprev) ∧ readWord s 0x033 = some s.faultcmd ∧
    (∀ d, d < 8 → readWord s (BitVec.ofNat 12 (0x008 + d)) = (s.beat[d]?).map fun b => b.setWidth 32) ∧
    (∀ k, k < 16 → s.lutv.getLsbD k = true →
      readWord s (BitVec.ofNat 12 (0x010 + k)) = (s.lut[k]?).map packColour) ∧
    (∀ k, k < 16 → s.lutv.getLsbD k = false →
      ∃ w, readWord s (BitVec.ofNat 12 (0x010 + k)) = some w ∧ w.toNat < 2 ^ 24) ∧
    (∀ a, a < 18 → readWord s (BitVec.ofNat 12 (0x020 + a)) = (s.glh[a]?).map packValid) ∧
    (∀ j, j < s.params.cpmax → readWord s (BitVec.ofNat 12 (0x040 + j)) = (s.cp[j]?).map packControlPoint) ∧
    (∀ i, i < s.params.n → readWord s (BitVec.ofNat 12 (0x400 + i)) = (s.pix[i]?).map packColour) ∧
    packValid none = 0 ∧ (∀ x : Half, (packValid (some x)).toNat = 2 ^ 31 + x.toNat) ∧
    (∀ d b, d < 8 → s.beat[d]? = some b → beatAt s d = b.toNat)

/-- The fields of `STATUS` (10_state.md R33). -/
def Obligations.StatusFields : Prop :=
  ∀ s : State,
    (statusWord s).getLsbD 0 = s.busy ∧ (statusWord s).getLsbD 1 = s.fault ∧
    ((statusWord s).getLsbD 2 = true ↔ s.lutv = 0xFFFF) ∧ (statusWord s).getLsbD 3 = s.sprev.isSome ∧
    (statusWord s).extractLsb' 4 4 = s.fcode ∧ (statusWord s).extractLsb' 8 8 = (0 : BitVec 8) ∧
    (statusWord s).extractLsb' 16 16 = s.finfo ∧ s.busyPin = s.busy ∧ s.faultPin = s.fault

/-- A write stores the bits its register keeps, a following read returns them, a write to `LUT[k]` sets `LUTV[k]` and
changes no bit of `STATUS` but `PVALID`, and no other register or element changes (20_memory.md R64, R68, R70). That the
word standing at an entry of `LUT` with `LUTV[k] = 0` is the same after the write is the model's choice (log 6): R27 lets
every read of it differ. -/
def Obligations.WriteThenReadReturnsTheKeptBits : Prop :=
  ∀ (s : State) (a : Addr) (v : Word) (rest : List PortEvent), Inv s → s.busy = false → s.fault = false →
    s.host = .write a v :: .read a :: rest → a ≠ 0x000 → ¬ readOnly a → ¬ unmapped s.params a →
    ∃ t u tgt, step s = .next t ∧ step t = .next u ∧ addressMap s.params a = some tgt ∧
      u.answer = some (keptBits tgt v) ∧ t.fault = false ∧
      (∀ k, tgt = .lut k → t.lutv = s.lutv ||| ((1 : Half) <<< k) ∧
        ((statusWord t).getLsbD 2 = true ↔ t.lutv = 0xFFFF) ∧
        ∀ j, j ≠ 2 → (statusWord t).getLsbD j = (statusWord s).getLsbD j) ∧
      (∀ b, b ≠ a → b ≠ 0x001 → b ≠ 0x007 → readWord t b = readWord s b) ∧
      ((∀ k, tgt ≠ .lut k) → t.lutv = s.lutv ∧ statusWord t = statusWord s)

/-- The address map of 10_state.md R20: each mapped address names one target and each target has one address. -/
def Obligations.AddressMapIsOneToOne : Prop :=
  ∀ (p : Params) (a b : Addr) (t : Target),
    (addressMap p a = some t → targetAddr t = a) ∧
    (addressMap p a = some t → addressMap p b = some t → a = b) ∧
    (addressMap p a = none ↔ unmapped p a)

/-! ### Whole-machine rules -/

/-- The column "written by commands" of 10_state.md R20: whatever command runs, with or without a fault, every word the
column does not give it reads as before. That this holds of an entry of `LUT` with `LUTV[k] = 0` too is the model's
choice (log 6): 10_state.md R27 lets every read of it differ. -/
def Obligations.CommandsWriteOnlyTheirColumn : Prop :=
  ∀ (i : Instr) (s t : State), exec i s = .next t →
    ∀ (a : Addr) (tgt : Target), addressMap s.params a = some tgt → writtenBy i tgt = false → tgt ≠ .status →
      (tgt ≠ .faultcmd ∨ t.fault = s.fault) → readWord t a = readWord s a

/-- "No command writes it" of `GINDEX`, `FRAME`, `CPCNT` and `BEAT`, and "Only the host writes it" of `CP` (10_state.md
R22, R23, R24, R28, R29); the parameters never change (00_scope.md R4). The host's requests, the answer and the counter
`fresh` are the model's own (log 2, log 6). -/
def Obligations.CommandsLeaveHostRegisters : Prop :=
  ∀ (i : Instr) (s t : State), exec i s = .next t →
    t.gindex = s.gindex ∧ t.frame = s.frame ∧ t.cpcnt = s.cpcnt ∧ t.beat = s.beat ∧ t.cp = s.cp ∧
      t.params = s.params ∧ t.host = s.host ∧ t.answer = s.answer ∧ t.fresh = s.fresh

/-- `RESULT` "keeps its value until the next of those three commands completes without a fault; a faulting command does
not change it" (10_state.md R25), whatever the step. -/
def Obligations.ResultChangesOnlyByItsCommands : Prop :=
  ∀ s t : State, step s = .next t → t.result ≠ s.result →
    (∃ rest, s.host = .rst :: rest) ∨
    (s.fault = false ∧ t.fault = false ∧ ∃ w rest, s.host = .write 0x000 w :: rest ∧
      ∃ x y, decode w = .instr (.gqry x) ∨ decode w = .instr (.sample x) ∨ decode w = .instr (.sampleb x y))

/-- The pseudo-instructions' expansions (30_encoding.md R86). -/
def Obligations.PseudoInstructionsExpand : Prop :=
  ∀ (oldIndex oldFrame : Word) (j k i : Nat) (pos r g b r0 g0 b0 r1 g1 b1 : Byte), j < 64 → k < 16 → i < 1024 →
    Stmt.expand oldIndex oldFrame (.ldcp j pos r g b) =
      [.write (0x040 + BitVec.ofNat 12 j)
        ((pos.setWidth 32 <<< 24) ||| (r.setWidth 32 <<< 16) ||| (g.setWidth 32 <<< 8) ||| b.setWidth 32)] ∧
    Stmt.expand oldIndex oldFrame (.ldlut k r g b) =
      [.write (0x010 + BitVec.ofNat 12 k) ((r.setWidth 32 <<< 16) ||| (g.setWidth 32 <<< 8) ||| b.setWidth 32)] ∧
    Stmt.expand oldIndex oldFrame (.ldpix i r g b) =
      [.write (0x400 + BitVec.ofNat 12 i) ((r.setWidth 32 <<< 16) ||| (g.setWidth 32 <<< 8) ||| b.setWidth 32)] ∧
    Stmt.expand oldIndex oldFrame (.ramp r0 g0 b0 r1 g1 b1) =
      Stmt.expand oldIndex oldFrame (.ldcp 0 0 r0 g0 b0) ++ Stmt.expand oldIndex oldFrame (.ldcp 1 255 r1 g1 b1) ++
        [.write 0x004 2, .write 0x000 0x01000000] ∧
    Stmt.expand oldIndex oldFrame .framestep =
      [.read 0x002, .read 0x003, .write 0x002 (oldIndex + 1), .write 0x003 (oldFrame + 1)]

/-- The document's Ramp on the block (30_encoding.md R86): the four accesses of `RAMP` on a block that is not frozen
leave a valid palette, entry `k` the exact blend of the two colours at position `16*k`. -/
def Obligations.RampBuildsATwoColourPalette : Prop :=
  ∀ (s : State) (x y : Word) (r0 g0 b0 r1 g1 b1 : Byte), Inv s → s.busy = false → s.fault = false →
    s.host = Stmt.expand x y (.ramp r0 g0 b0 r1 g1 b1) →
    ∃ t, Sys2Proof.core.run 4 s = .next t ∧ goodEnd t = true ∧ t.lutv = 0xFFFF ∧
      ∀ k, k < 16 → t.lut[k]? = some (lerpC ⟨r0, g0, b0⟩ ⟨r1, g1, b1⟩ (16 * k) 255)

/-! ### A command that waits for the source -/

/-- "The block's own reads and writes inside a command happen in the order of the command's pseudocode" (20_memory.md
R70), with the exchanges where the pseudocode makes them (R74), so a command stuck on an exchange has done what stands
before it and nothing after it: RCANDLE the pixels whose draw was answered, RCONFETTI its fade and the speckles whose
draw was answered, GLITTER the lights and the aging (slot 0, decided after the draws, still holds what it held), RSWEEPG
its sweep and then what a stuck GLITTER has done. That a stuck block is a state with BUSY 1 is the model's (log 4). -/
def Obligations.WaitingCommandsHaveDoneWhatPrecedesTheDraw : Prop :=
  (∀ s : State, Inv s → s.fault = false → s.lutv = 0xFFFF → beatAt s 0 + beatAt s 1 ≤ 255 →
    answersAll s.source s.params.n = false →
    ∃ t, exec .rcandle s = .next t ∧ t = { s with pix := t.pix, source := t.source, busy := true } ∧
      t.pix.length = s.params.n ∧
      ∀ i, i < s.params.n →
        (i < s.source.answers.length → ∀ ch,
          chan ch (pixAt t.pix i) =
            chan ch (sampleLut s.lut (BitVec.ofNat 8 ((s.gindex.toNat + 3 * i) % 256)))
              * (beatAt s 0 + beatAt s 1 - draw s.source i 10) / 255) ∧
        (s.source.answers.length ≤ i → t.pix[i]? = s.pix[i]?)) ∧
  (∀ s : State, Inv s → s.fault = false → s.lutv = 0xFFFF → answersAll s.source (beatAt s 0) = false →
    ∃ t, exec .rconfetti s = .next t ∧ t = { s with pix := t.pix, source := t.source, busy := true } ∧
      t.pix.length = s.params.n ∧
      ∀ i ch, i < s.params.n →
        chan ch (pixAt t.pix i) = min 255 (chan ch (pixAt s.pix i) * 245 / 255 +
          ((List.range s.source.answers.length).map fun k =>
            if draw s.source k s.params.n = i
            then chan ch (sampleLut s.lut (BitVec.ofNat 8 ((s.gindex.toNat + 16 * k) % 256))) else 0).sum)) ∧
  (∀ (s : State) (chance : Byte), Inv s → s.fault = false →
    answersAll s.source (drawBounds (.glitter chance) s).length = false →
    ∃ t, exec (.glitter chance) s = .next t ∧
      t = { s with glh := t.glh, pix := t.pix, source := t.source, busy := true } ∧
      t.glh.length = 18 ∧ t.pix.length = s.params.n ∧
      (s.frame = 0 → t.pix = s.pix ∧ ∀ a, a < 18 → t.glh[a]? = some none) ∧
      (s.frame ≠ 0 →
        t.glh[0]? = s.glh[0]? ∧ (∀ a, a < 17 → t.glh[a + 1]? = s.glh[a]?) ∧
        ∀ i ch, i < s.params.n →
          chan ch (pixAt t.pix i) = min 255 (chan ch (pixAt s.pix i) +
            ((List.range' 1 17).map fun a =>
              if s.glh[a - 1]? = some (some (BitVec.ofNat 16 i)) then s.params.glitB a else 0).sum))) ∧
  (∀ s : State, s.fault = false → s.lutv = 0xFFFF → answersAll s.source (drawBounds .rsweepg s).length = false →
    ∃ t u, exec .rsweep s = .next t ∧
      exec (.glitter (BitVec.ofNat 8 (min (s.frame.toNat / 20) 100))) t = .next u ∧
      exec .rsweepg s = .next u ∧ u.busy = true)
end

