-- ==== Sys2Proof/Laws/Arith.lean ====
section
/-! SUPPORT. The primitives as natural numbers, per channel: every law about colours is reduced to these. -/

namespace Sys2Proof.Machine

open Sys2Proof.Safety

/-- A weighted mean of two bytes is a byte. -/
theorem lerp_quotient_lt {a b w D : Nat} (ha : a < 256) (hb : b < 256) (hw : w ≤ D) (hD : 1 ≤ D) :
    (a * (D - w) + b * w) / D < 256 := by
  have h : a * (D - w) + b * w ≤ 255 * D := by
    calc a * (D - w) + b * w ≤ 255 * (D - w) + 255 * w :=
          Nat.add_le_add (Nat.mul_le_mul_right _ (by omega)) (Nat.mul_le_mul_right _ (by omega))
      _ = 255 * D := by rw [← Nat.mul_add, Nat.sub_add_cancel hw]
  have := Nat.div_le_div_right (c := D) h
  rw [Nat.mul_div_cancel _ (by omega)] at this
  omega

theorem lerp_toNat {w D : Nat} (a b : Byte) (hw : w ≤ D) (hD : 1 ≤ D) :
    (lerp a b w D).toNat = (a.toNat * (D - w) + b.toNat * w) / D := by
  simp only [lerp, BitVec.toNat_ofNat]
  exact Nat.mod_eq_of_lt (lerp_quotient_lt a.isLt b.isLt hw hD)

theorem chan_lerpC {w D : Nat} (ch : Channel) (A B : Colour) (hw : w ≤ D) (hD : 1 ≤ D) :
    chan ch (lerpC A B w D) = (chan ch A * (D - w) + chan ch B * w) / D := by
  cases ch <;> exact lerp_toNat _ _ hw hD

/-- A byte scaled by at most 255 is a byte. -/
theorem scale_quotient_le {c s : Nat} (hs : s ≤ 255) : c * s / 255 ≤ c := by
  calc c * s / 255 ≤ c * 255 / 255 := Nat.div_le_div_right (Nat.mul_le_mul_left _ hs)
    _ = c := Nat.mul_div_cancel _ (by omega)

theorem scale_toNat {s : Nat} (c : Byte) (hs : s ≤ 255) : (scale c s).toNat = c.toNat * s / 255 := by
  simp only [scale, BitVec.toNat_ofNat]
  have := scale_quotient_le (c := c.toNat) hs
  have := c.isLt
  exact Nat.mod_eq_of_lt (by omega)

theorem chan_scaleC {s : Nat} (ch : Channel) (C : Colour) (hs : s ≤ 255) :
    chan ch (scaleC C s) = chan ch C * s / 255 := by
  cases ch <;> exact scale_toNat _ hs

theorem addSat_toNat (a b : Byte) : (addSat a b).toNat = min 255 (a.toNat + b.toNat) := by
  simp only [addSat, BitVec.toNat_ofNat]
  exact Nat.mod_eq_of_lt (by omega)

theorem chan_addSatC (ch : Channel) (A B : Colour) : chan ch (addSatC A B) = min 255 (chan ch A + chan ch B) := by
  cases ch <;> exact addSat_toNat _ _

theorem maxByte_toNat (a b : Byte) : (maxByte a b).toNat = max a.toNat b.toNat := by
  simp only [maxByte, BitVec.toNat_ofNat]
  have := a.isLt
  have := b.isLt
  exact Nat.mod_eq_of_lt (by omega)

theorem chan_maxC (ch : Channel) (A B : Colour) : chan ch (maxC A B) = max (chan ch A) (chan ch B) := by
  cases ch <;> exact maxByte_toNat _ _

theorem chan_grey {g : Nat} (ch : Channel) (hg : g < 256) : chan ch (grey g) = g := by
  cases ch <;> simp [chan, grey, Nat.mod_eq_of_lt hg]

theorem chan_lt (ch : Channel) (c : Colour) : chan ch c < 256 := by
  cases ch <;> exact BitVec.isLt _

/-- Two colours with the same three channels are equal. -/
theorem colour_ext_chan {A B : Colour} (h : ∀ ch, chan ch A = chan ch B) : A = B := by
  have hr := h .red
  have hg := h .green
  have hb := h .blue
  cases A; cases B
  simp only [chan] at hr hg hb
  simp [BitVec.eq_of_toNat_eq hr, BitVec.eq_of_toNat_eq hg, BitVec.eq_of_toNat_eq hb]

end Sys2Proof.Machine
end

