-- ==== Sys2Proof/Laws/Bits.lean ====
section
/-! SUPPORT. Words by their bits: packed bytes as shifts, the bit a write of an entry sets, the bits a narrow register
keeps. -/

namespace Sys2Proof.Machine

/-- A packed control point as the shifts of 30_encoding.md R86. -/
theorem packControlPoint_eq_or (pos r g b : Byte) :
    packControlPoint ⟨pos, r, g, b⟩ =
      (pos.setWidth 32 <<< 24) ||| (r.setWidth 32 <<< 16) ||| (g.setWidth 32 <<< 8) ||| b.setWidth 32 := by
  unfold packControlPoint; ext i hi
  simp only [BitVec.getElem_append, BitVec.getElem_or, BitVec.getElem_shiftLeft, BitVec.getElem_setWidth]
  interval_cases i <;> simp

/-- A packed colour is a control point at position 0. -/
theorem packColour_eq_packControlPoint (c : Colour) : packColour c = packControlPoint ⟨0, c⟩ := rfl

theorem packColour_eq_or (r g b : Byte) :
    packColour ⟨r, g, b⟩ = (r.setWidth 32 <<< 16) ||| (g.setWidth 32 <<< 8) ||| b.setWidth 32 := by
  rw [packColour_eq_packControlPoint, packControlPoint_eq_or]; simp

/-- A command word as its fields shifted into place (30_encoding.md R80). -/
theorem packCommand_eq_or (op i1 i0 : Byte) :
    packCommand op i1 i0 = (op.setWidth 32 <<< 24) ||| (i1.setWidth 32 <<< 8) ||| i0.setWidth 32 := by
  rw [show packCommand op i1 i0 = packControlPoint ⟨op, 0, i1, i0⟩ from rfl, packControlPoint_eq_or]; simp

/-- A write to `LUT[k]` sets `LUTV[k]` (10_state.md R27). -/
theorem getLsbD_setBit_same (l : Half) {k : Nat} (hk : k < 16) : (l ||| ((1 : Half) <<< k)).getLsbD k = true := by
  simp [hk]

/-- It leaves the other bits alone. -/
theorem getLsbD_setBit_other (l : Half) {k j : Nat} (h : j ≠ k) :
    (l ||| ((1 : Half) <<< k)).getLsbD j = l.getLsbD j := by
  rw [show (1 : Half) = 1#16 from rfl, BitVec.getLsbD_or, BitVec.getLsbD_shiftLeft, BitVec.getLsbD_one]
  by_cases hj : j < k
  · simp [hj]
  · simp [show ¬ j - k = 0 by omega]

/-- What an 8-bit register keeps of a word (20_memory.md R68). -/
theorem setWidth_byte_word (v : Word) : (v.setWidth 8).setWidth 32 = v &&& 0x000000FF := by
  ext i hi
  simp only [BitVec.getElem_setWidth, BitVec.getElem_and, BitVec.getLsbD_setWidth]
  interval_cases i <;> simp

/-- What a 16-bit register keeps of a word. -/
theorem setWidth_half_word (v : Word) : (v.setWidth 16).setWidth 32 = v &&& 0x0000FFFF := by
  ext i hi
  simp only [BitVec.getElem_setWidth, BitVec.getElem_and, BitVec.getLsbD_setWidth]
  interval_cases i <;> simp

end Sys2Proof.Machine
end

