-- ==== Sys2Proof/Laws/Encoding.lean ====
section
/-! SUPPORT. The fields of a packed command word, and what the decoder can answer. -/

namespace Sys2Proof

@[simp] theorem opField_packCommand (op i1 i0 : Byte) : opField (packCommand op i1 i0) = op := by
  apply BitVec.eq_of_getLsbD_eq; intro k hk
  simp only [opField, packCommand, BitVec.getLsbD_extractLsb', BitVec.getLsbD_append]
  simp [show k < 8 from hk, show ¬ 24 + k < 8 by omega, show ¬ 24 + k - 8 < 8 by omega, show ¬ 24 + k - 8 - 8 < 8 by omega,
    show 24 + k - 8 - 8 - 8 = k by omega]

@[simp] theorem zeroField_packCommand (op i1 i0 : Byte) : zeroField (packCommand op i1 i0) = 0 := by
  apply BitVec.eq_of_getLsbD_eq; intro k hk
  simp only [zeroField, packCommand, BitVec.getLsbD_extractLsb', BitVec.getLsbD_append]
  simp [show k < 8 from hk, show ¬ 16 + k < 8 by omega, show ¬ 16 + k - 8 < 8 by omega, show 16 + k - 8 - 8 < 8 by omega]

@[simp] theorem imm1_packCommand (op i1 i0 : Byte) : imm1 (packCommand op i1 i0) = i1 := by
  apply BitVec.eq_of_getLsbD_eq; intro k hk
  simp only [imm1, packCommand, BitVec.getLsbD_extractLsb', BitVec.getLsbD_append]
  simp [show k < 8 from hk, show ¬ 8 + k < 8 by omega]

@[simp] theorem imm0_packCommand (op i1 i0 : Byte) : imm0 (packCommand op i1 i0) = i0 := by
  apply BitVec.eq_of_getLsbD_eq; intro k hk
  simp only [imm0, packCommand, BitVec.getLsbD_extractLsb', BitVec.getLsbD_append]
  simp [show k < 8 from hk]

/-- A word is its four fields. -/
theorem packCommand_fields {w : Word} (h : zeroField w = 0) : packCommand (opField w) (imm1 w) (imm0 w) = w := by
  apply BitVec.eq_of_getLsbD_eq; intro k hk
  have hz : ∀ j, j < 8 → w.getLsbD (16 + j) = false := by
    intro j hj
    have := congrArg (fun v : Byte => v.getLsbD j) h
    simpa [zeroField, hj] using this
  simp only [packCommand, opField, imm1, imm0, BitVec.getLsbD_append, BitVec.getLsbD_extractLsb']
  by_cases h0 : k < 8
  · simp [h0]
  · by_cases h1 : k - 8 < 8
    · simp [h0, h1, show 8 + (k - 8) = k by omega]
    · by_cases h2 : k - 8 - 8 < 8
      · have := hz (k - 8 - 8) h2
        simp [h0, h1, h2]
        rw [← this]
        congr 1
        omega
      · simp [h0, h1, h2, show k - 8 - 8 - 8 < 8 by omega, show 24 + (k - 8 - 8 - 8) = k by omega]

/-- A decoder row answers a command only where its zero fields are 0. -/
theorem formatZ_instr {w : Word} {i j : Instr} (h : formatZ w i = .instr j) :
    j = i ∧ zeroField w = 0 ∧ imm1 w = 0 ∧ imm0 w = 0 := by
  unfold formatZ at h; split at h
  · cases h; simp_all
  · cases h

theorem formatA_instr {w : Word} {i : Byte → Instr} {j : Instr} (h : formatA w i = .instr j) :
    j = i (imm0 w) ∧ zeroField w = 0 ∧ imm1 w = 0 := by
  unfold formatA at h; split at h
  · cases h; simp_all
  · cases h

theorem formatB_instr {w : Word} {i : Byte → Byte → Instr} {j : Instr} (h : formatB w i = .instr j) :
    j = i (imm0 w) (imm1 w) ∧ zeroField w = 0 := by
  unfold formatB at h; split at h
  · cases h; simp_all
  · cases h

end Sys2Proof
end

