-- ==== Sys2Proof/Laws/State.lean ====
section
/-! SUPPORT. What each named update of the state leaves in each field: a request taken, a reset, a fault raised, a
command word offered. -/

namespace Sys2Proof.Machine

/-! ### Taking a request -/

section TakeRequest
variable (rest : List PortEvent) (s : State)

@[simp] theorem takeRequest_gindex : (takeRequest rest s).gindex = s.gindex := rfl
@[simp] theorem takeRequest_frame : (takeRequest rest s).frame = s.frame := rfl
@[simp] theorem takeRequest_cpcnt : (takeRequest rest s).cpcnt = s.cpcnt := rfl
@[simp] theorem takeRequest_result : (takeRequest rest s).result = s.result := rfl
@[simp] theorem takeRequest_beat : (takeRequest rest s).beat = s.beat := rfl
@[simp] theorem takeRequest_lut : (takeRequest rest s).lut = s.lut := rfl
@[simp] theorem takeRequest_lutv : (takeRequest rest s).lutv = s.lutv := rfl
@[simp] theorem takeRequest_cp : (takeRequest rest s).cp = s.cp := rfl
@[simp] theorem takeRequest_pix : (takeRequest rest s).pix = s.pix := rfl
@[simp] theorem takeRequest_glh : (takeRequest rest s).glh = s.glh := rfl
@[simp] theorem takeRequest_sprev : (takeRequest rest s).sprev = s.sprev := rfl
@[simp] theorem takeRequest_busy : (takeRequest rest s).busy = s.busy := rfl
@[simp] theorem takeRequest_fault : (takeRequest rest s).fault = s.fault := rfl
@[simp] theorem takeRequest_fcode : (takeRequest rest s).fcode = s.fcode := rfl
@[simp] theorem takeRequest_finfo : (takeRequest rest s).finfo = s.finfo := rfl
@[simp] theorem takeRequest_faultcmd : (takeRequest rest s).faultcmd = s.faultcmd := rfl
@[simp] theorem takeRequest_params : (takeRequest rest s).params = s.params := rfl
@[simp] theorem takeRequest_host : (takeRequest rest s).host = rest := rfl
@[simp] theorem takeRequest_answer : (takeRequest rest s).answer = none := rfl
@[simp] theorem takeRequest_source : (takeRequest rest s).source = s.source := rfl
@[simp] theorem takeRequest_fresh : (takeRequest rest s).fresh = s.fresh := rfl

end TakeRequest

/-! ### Reset -/

section Reset
variable (s : State)

@[simp] theorem assertReset_gindex : (assertReset s).gindex = 0 := rfl
@[simp] theorem assertReset_frame : (assertReset s).frame = 0 := rfl
@[simp] theorem assertReset_cpcnt : (assertReset s).cpcnt = 0 := rfl
@[simp] theorem assertReset_result : (assertReset s).result = .black := rfl
@[simp] theorem assertReset_beat : (assertReset s).beat = List.replicate 8 0 := rfl
@[simp] theorem assertReset_lutv : (assertReset s).lutv = 0 := rfl
@[simp] theorem assertReset_glh : (assertReset s).glh = List.replicate 18 none := rfl
@[simp] theorem assertReset_sprev : (assertReset s).sprev = none := rfl
@[simp] theorem assertReset_busy : (assertReset s).busy = false := rfl
@[simp] theorem assertReset_fault : (assertReset s).fault = false := rfl
@[simp] theorem assertReset_fcode : (assertReset s).fcode = 0 := rfl
@[simp] theorem assertReset_finfo : (assertReset s).finfo = 0 := rfl
@[simp] theorem assertReset_faultcmd : (assertReset s).faultcmd = 0 := rfl
@[simp] theorem assertReset_params : (assertReset s).params = s.params := rfl
@[simp] theorem assertReset_host : (assertReset s).host = s.host := rfl
@[simp] theorem assertReset_answer : (assertReset s).answer = none := rfl
@[simp] theorem assertReset_source : (assertReset s).source = s.source := rfl
@[simp] theorem assertReset_fresh : (assertReset s).fresh = s.fresh + 1 := rfl

end Reset

/-! ### Waiting for the source -/

section Hang
variable (bounds : List Nat) (s : State)

@[simp] theorem hang_gindex : (hang bounds s).gindex = s.gindex := rfl
@[simp] theorem hang_frame : (hang bounds s).frame = s.frame := rfl
@[simp] theorem hang_cpcnt : (hang bounds s).cpcnt = s.cpcnt := rfl
@[simp] theorem hang_result : (hang bounds s).result = s.result := rfl
@[simp] theorem hang_beat : (hang bounds s).beat = s.beat := rfl
@[simp] theorem hang_lut : (hang bounds s).lut = s.lut := rfl
@[simp] theorem hang_lutv : (hang bounds s).lutv = s.lutv := rfl
@[simp] theorem hang_cp : (hang bounds s).cp = s.cp := rfl
@[simp] theorem hang_pix : (hang bounds s).pix = s.pix := rfl
@[simp] theorem hang_glh : (hang bounds s).glh = s.glh := rfl
@[simp] theorem hang_sprev : (hang bounds s).sprev = s.sprev := rfl
@[simp] theorem hang_fault : (hang bounds s).fault = s.fault := rfl
@[simp] theorem hang_fcode : (hang bounds s).fcode = s.fcode := rfl
@[simp] theorem hang_finfo : (hang bounds s).finfo = s.finfo := rfl
@[simp] theorem hang_faultcmd : (hang bounds s).faultcmd = s.faultcmd := rfl
@[simp] theorem hang_params : (hang bounds s).params = s.params := rfl
@[simp] theorem hang_host : (hang bounds s).host = s.host := rfl
@[simp] theorem hang_answer : (hang bounds s).answer = s.answer := rfl
@[simp] theorem hang_fresh : (hang bounds s).fresh = s.fresh := rfl
@[simp] theorem hang_busy : (hang bounds s).busy = true := rfl
@[simp] theorem hang_source : (hang bounds s).source = afterSilence s.source bounds := rfl

end Hang

/-! ### Fault entry -/

/-- With `FAULT = 1` fault entry does nothing. -/
theorem raiseFault_of_fault {s : State} (h : s.fault = true) (code : FaultCode) (info : Nat) (word : Word) :
    raiseFault code info word s = s := by simp [raiseFault, h]

/-- With `FAULT = 0` fault entry writes the four fault registers and nothing else. -/
theorem raiseFault_of_live {s : State} (h : s.fault = false) (code : FaultCode) (info : Nat) (word : Word) :
    raiseFault code info word s =
      { s with fault := true, fcode := faultNumber code, finfo := BitVec.ofNat 16 info, faultcmd := word } := by
  simp [raiseFault, h]

/-- Fault entry leaves a frozen block. -/
@[simp] theorem raiseFault_fault (s : State) (code : FaultCode) (info : Nat) (word : Word) :
    (raiseFault code info word s).fault = true := by
  unfold raiseFault; split <;> simp_all

section RaiseFault
variable (code : FaultCode) (info : Nat) (word : Word) (s : State)

@[simp] theorem raiseFault_gindex : (raiseFault code info word s).gindex = s.gindex := by unfold raiseFault; split <;> rfl
@[simp] theorem raiseFault_frame : (raiseFault code info word s).frame = s.frame := by unfold raiseFault; split <;> rfl
@[simp] theorem raiseFault_cpcnt : (raiseFault code info word s).cpcnt = s.cpcnt := by unfold raiseFault; split <;> rfl
@[simp] theorem raiseFault_result : (raiseFault code info word s).result = s.result := by unfold raiseFault; split <;> rfl
@[simp] theorem raiseFault_beat : (raiseFault code info word s).beat = s.beat := by unfold raiseFault; split <;> rfl
@[simp] theorem raiseFault_lut : (raiseFault code info word s).lut = s.lut := by unfold raiseFault; split <;> rfl
@[simp] theorem raiseFault_lutv : (raiseFault code info word s).lutv = s.lutv := by unfold raiseFault; split <;> rfl
@[simp] theorem raiseFault_cp : (raiseFault code info word s).cp = s.cp := by unfold raiseFault; split <;> rfl
@[simp] theorem raiseFault_pix : (raiseFault code info word s).pix = s.pix := by unfold raiseFault; split <;> rfl
@[simp] theorem raiseFault_glh : (raiseFault code info word s).glh = s.glh := by unfold raiseFault; split <;> rfl
@[simp] theorem raiseFault_sprev : (raiseFault code info word s).sprev = s.sprev := by unfold raiseFault; split <;> rfl
@[simp] theorem raiseFault_busy : (raiseFault code info word s).busy = s.busy := by unfold raiseFault; split <;> rfl
@[simp] theorem raiseFault_params : (raiseFault code info word s).params = s.params := by unfold raiseFault; split <;> rfl
@[simp] theorem raiseFault_host : (raiseFault code info word s).host = s.host := by unfold raiseFault; split <;> rfl
@[simp] theorem raiseFault_answer : (raiseFault code info word s).answer = s.answer := by unfold raiseFault; split <;> rfl
@[simp] theorem raiseFault_source : (raiseFault code info word s).source = s.source := by unfold raiseFault; split <;> rfl
@[simp] theorem raiseFault_fresh : (raiseFault code info word s).fresh = s.fresh := by unfold raiseFault; split <;> rfl

end RaiseFault

/-! ### A command word offered -/

@[simp] theorem withFetchWord_host (s : State) (nbits w : Nat) :
    (s.withFetchWord nbits w).host = .write cmdAddr (tableWord nbits w) :: s.host := rfl
@[simp] theorem withFetchWord_busy (s : State) (nbits w : Nat) : (s.withFetchWord nbits w).busy = s.busy := rfl
@[simp] theorem withFetchWord_fault (s : State) (nbits w : Nat) : (s.withFetchWord nbits w).fault = s.fault := rfl

end Sys2Proof.Machine
end

