-- ==== Sys2Proof/Laws/Ops.lean ====
section
/-! SUPPORT. One law per shared operation: parameters, draws, the frame every command runs in, and the whole of `exec`
as one instance of that frame. -/

namespace Sys2Proof

/-! ### Parameters -/

theorem Params.n_pos (p : Params) : 1 ≤ p.n := by
  have h := p.legal
  simp [RawParams.wellFormed, RawParams.nLegal] at h
  exact h.1.1.1.1

theorem Params.n_le (p : Params) : p.n ≤ 1024 := by
  have h := p.legal
  simp [RawParams.wellFormed, RawParams.nLegal] at h
  exact h.1.1.1.2

theorem Params.two_le_cpmax (p : Params) : 2 ≤ p.cpmax := by
  have h := p.legal
  simp [RawParams.wellFormed, RawParams.cpmaxLegal] at h
  exact h.1.1.2.1

theorem Params.cpmax_le (p : Params) : p.cpmax ≤ 64 := by
  have h := p.legal
  simp [RawParams.wellFormed, RawParams.cpmaxLegal] at h
  exact h.1.1.2.2

theorem Params.glitB_le (p : Params) (a : Nat) : p.glitB a ≤ 90 := by
  have h := p.legal
  simp [RawParams.wellFormed, RawParams.glitBLegal] at h
  unfold Params.glitB
  rw [List.getD_eq_getElem?_getD]
  rcases hx : p.raw.glitB[a - 1]? with _ | x
  · simp
  · exact h.1.2.1.2 x (List.mem_of_getElem? hx)

namespace Machine

/-! ### Draws -/

theorem draw_lt (src : Source) (k : Nat) {n : Nat} (hn : 1 ≤ n) : draw src k n < n := Nat.mod_lt _ (by omega)

/-- An answer listed in the source comes back. -/
theorem draw_of_answer {src : Source} {k n r : Nat} (h : src.answers[k]? = some r) (hr : r < n) : draw src k n = r := by
  simp [draw, sourceWord, h, Nat.mod_eq_of_lt hr]

/-- After some exchanges the next answers are the ones that stood behind them. -/
theorem sourceWord_afterDraws (src : Source) (bounds : List Nat) (k : Nat) :
    sourceWord (afterDraws src bounds) k = sourceWord src (bounds.length + k) := by
  simp [sourceWord, afterDraws, Nat.add_assoc]

@[simp] theorem afterDraws_silent (src : Source) (bounds : List Nat) : (afterDraws src bounds).silent = src.silent := rfl
@[simp] theorem afterDraws_asked (src : Source) (bounds : List Nat) :
    (afterDraws src bounds).asked = src.asked ++ bounds := rfl
@[simp] theorem afterDraws_answers (src : Source) (bounds : List Nat) :
    (afterDraws src bounds).answers = src.answers.drop bounds.length := rfl

@[simp] theorem answersAll_zero (src : Source) : answersAll src 0 = true := by simp [answersAll]

theorem answersAll_of_not_silent {src : Source} (h : src.silent = false) (k : Nat) : answersAll src k = true := by
  simp [answersAll, h]

/-- A source that answers more exchanges answers fewer. -/
theorem answersAll_mono {src : Source} {j k : Nat} (hjk : j ≤ k) (h : answersAll src k = true) :
    answersAll src j = true := by
  simp only [answersAll, Bool.or_eq_true, Bool.not_eq_true', decide_eq_true_eq] at *
  exact h.imp id fun hk => by omega

/-- A source that leaves an exchange without an answer is silent and lists too few answers. -/
theorem answersAll_eq_false {src : Source} {k : Nat} :
    answersAll src k = false ↔ src.silent = true ∧ src.answers.length < k := by
  simp [answersAll]

@[simp] theorem afterSilence_silent (src : Source) (bounds : List Nat) :
    (afterSilence src bounds).silent = src.silent := rfl
@[simp] theorem afterSilence_asked (src : Source) (bounds : List Nat) :
    (afterSilence src bounds).asked = src.asked ++ bounds.take (src.answers.length + 1) := rfl
/-- A source that has fallen silent has no answer left. -/
theorem afterSilence_answers {src : Source} {bounds : List Nat} (h : src.answers.length < bounds.length) :
    (afterSilence src bounds).answers = [] := by
  simp only [afterSilence, afterDraws_answers, List.length_take]
  exact List.drop_of_length_le (by omega)

/-! ### The frame every command runs in -/

section RunCommand
variable {i : Instr} {check : State → Option (FaultCode × Nat)} {bounds : State → List Nat}
  {waiting effect : State → State} {s : State}

/-- With `FAULT = 1` no command executes. -/
theorem runCommand_frozen (h : s.fault = true) : runCommand i check bounds waiting effect s = .next s := by
  simp [runCommand, h]

/-- A failing check raises its fault. -/
theorem runCommand_raise (h : s.fault = false) {code : FaultCode} {info : Nat} (hc : check s = some (code, info)) :
    runCommand i check bounds waiting effect s = .next (raiseFault code info (encode i) s) := by
  simp [runCommand, h, hc]

/-- With its checks passed and its draws answered the command has its effect. -/
theorem runCommand_effect (h : s.fault = false) (hc : check s = none) (hd : answersAll s.source (bounds s).length = true) :
    runCommand i check bounds waiting effect s = .next (effect s) := by
  simp [runCommand, h, hc, hd]

/-- With its checks passed and an exchange without an answer the command waits for ever. -/
theorem runCommand_silence (h : s.fault = false) (hc : check s = none)
    (hd : answersAll s.source (bounds s).length = false) :
    runCommand i check bounds waiting effect s =
      .next (hang (bounds s) (waiting s)) := by
  simp [runCommand, h, hc, hd]

/-- Everything a command can do. -/
theorem runCommand_cases {t : State} (h : runCommand i check bounds waiting effect s = .next t) :
    (s.fault = true ∧ t = s) ∨
    (s.fault = false ∧ ∃ code info, check s = some (code, info) ∧ t = raiseFault code info (encode i) s) ∨
    (s.fault = false ∧ check s = none ∧ answersAll s.source (bounds s).length = true ∧ t = effect s) ∨
    (s.fault = false ∧ check s = none ∧ answersAll s.source (bounds s).length = false ∧
      t = hang (bounds s) (waiting s)) := by
  unfold runCommand at h
  split at h
  · exact .inl ⟨‹_›, (Host.Outcome.next.inj h).symm⟩
  · have hf : s.fault = false := by simpa using ‹¬ s.fault = true›
    split at h
    · exact .inr (.inl ⟨hf, _, _, ‹_›, (Host.Outcome.next.inj h).symm⟩)
    · split at h
      · exact .inr (.inr (.inl ⟨hf, ‹_›, ‹_›, (Host.Outcome.next.inj h).symm⟩))
      · exact .inr (.inr (.inr ⟨hf, ‹_›, by simpa using ‹¬ answersAll _ _ = true›, (Host.Outcome.next.inj h).symm⟩))

/-- A command always gives a next state. -/
theorem runCommand_next : ∃ t, runCommand i check bounds waiting effect s = .next t := by
  unfold runCommand
  repeat' split
  all_goals exact ⟨_, rfl⟩

end RunCommand

/-! ### `exec` as one instance of the frame -/

/-- The check of a command. -/
def checkOf : Instr → State → Option (FaultCode × Nat)
  | .nop | .fade _ | .glitter _ => noCheck
  | .pbuild | .gqry _ => checkCP
  | .pblend4 => checkAnchors
  | .sample _ | .sampleb _ _ | .rsweep | .rsweepg | .rleader | .rdist | .rconfetti => checkPal
  | .rjuggle => checkJuggle
  | .rsinelon => checkSinelon
  | .rcandle => checkCandle

/-- The bounds a command presents to the source, in order. -/
def boundsOf : Instr → State → List Nat
  | .glitter chance => glitterBounds chance.toNat
  | .rsweepg => fun s => glitterBounds (sweepChance s) s
  | .rconfetti => confettiBounds
  | .rcandle => candleBounds
  | .nop | .pbuild | .gqry _ | .pblend4 | .sample _ | .sampleb _ _ | .rsweep | .rleader | .rdist | .rjuggle
  | .rsinelon | .fade _ => noDraw

/-- What a command has done while it waits for an exchange without an answer. -/
def waitingOf : Instr → State → State
  | .glitter _ => glitterAge
  | .rsweepg => fun s => glitterAge { s with pix := sweepPix s }
  | .rconfetti => fun s => { s with pix := confettiPix s s.source.answers.length }
  | .rcandle => fun s => { s with
      pix := paint s fun i => if i < s.source.answers.length then candlePixel s i else pixAt s.pix i }
  | .nop | .pbuild | .gqry _ | .pblend4 | .sample _ | .sampleb _ _ | .rsweep | .rleader | .rdist | .rjuggle
  | .rsinelon | .fade _ => noWait

/-- The effect of a command. -/
def effectOf : Instr → State → State
  | .nop => id
  | .pbuild => fun s => { s with
      lut := (List.range 16).map fun k => decodeGradient s.cp s.cpcnt.toNat (16 * k), lutv := 0xFFFF }
  | .gqry pos => fun s => { s with result := decodeGradient s.cp s.cpcnt.toNat pos.toNat }
  | .pblend4 => fun s => { s with lut := (List.range 16).map (blendEntry s.params.blend4Tail s.lut), lutv := 0xFFFF }
  | .sample idx => fun s => { s with result := sampleLut s.lut idx }
  | .sampleb idx bri => fun s => { s with result := scaleC (sampleLut s.lut idx) bri.toNat }
  | .rsweep => fun s => { s with pix := sweepPix s }
  | .rsweepg => fun s => glitterStep (sweepChance s) { s with pix := sweepPix s }
  | .rleader => fun s => { s with pix := paint s fun i => if i = 0 then sampleAt s 40 else sampleAt s (2 * i) }
  | .rdist => fun s => { s with pix := paint s fun i => sampleAt s (255 / s.params.n * i) }
  | .rconfetti => fun s => { s with
      pix := confettiPix s (beatAt s 0), source := afterDraws s.source (confettiBounds s) }
  | .rjuggle => fun s => { s with pix := [1, 2, 3, 4, 5, 6, 7].foldl (juggleDot s) (fadeAll 20 s.pix) }
  | .rsinelon => fun s => { s with
      pix := (trailPositions (previousBeat s) (beatAt s 0)).foldl
        (fun pix q => pix.set (q % s.params.n) (sampleAt s 0)) ((fadeAll 20 s.pix).set (beatAt s 0 % s.params.n) (sampleAt s 0))
      sprev := some (BitVec.ofNat 16 (beatAt s 0)) }
  | .rcandle => fun s => { s with pix := paint s (candlePixel s), source := afterDraws s.source (candleBounds s) }
  | .fade amt => fun s => { s with pix := fadeAll amt.toNat s.pix }
  | .glitter chance => glitterStep chance.toNat

/-- Every command runs in the same frame. -/
theorem exec_eq_runCommand (i : Instr) (s : State) :
    exec i s = runCommand i (checkOf i) (boundsOf i) (waitingOf i) (effectOf i) s := by
  cases i
  case nop => rfl
  case pbuild => rfl
  case gqry => rfl
  case pblend4 => rfl
  case sample => rfl
  case sampleb => rfl
  case rsweep => rfl
  case rsweepg => rfl
  case rleader => rfl
  case rdist => rfl
  case rconfetti => rfl
  case rjuggle => rfl
  case rsinelon => rfl
  case rcandle => rfl
  case fade => rfl
  case glitter => rfl

/-- Everything `exec` can do. -/
theorem exec_cases {i : Instr} {s t : State} (h : exec i s = .next t) :
    (s.fault = true ∧ t = s) ∨
    (s.fault = false ∧ ∃ code info, checkOf i s = some (code, info) ∧ t = raiseFault code info (encode i) s) ∨
    (s.fault = false ∧ checkOf i s = none ∧ answersAll s.source (boundsOf i s).length = true ∧ t = effectOf i s) ∨
    (s.fault = false ∧ checkOf i s = none ∧ answersAll s.source (boundsOf i s).length = false ∧
      t = hang (boundsOf i s) (waitingOf i s)) :=
  runCommand_cases (exec_eq_runCommand i s ▸ h)

/-- What no effect touches. -/
theorem effectOf_frame (i : Instr) (s : State) :
    (effectOf i s).gindex = s.gindex ∧ (effectOf i s).frame = s.frame ∧ (effectOf i s).cpcnt = s.cpcnt ∧
    (effectOf i s).beat = s.beat ∧ (effectOf i s).cp = s.cp ∧ (effectOf i s).params = s.params ∧
    (effectOf i s).busy = s.busy ∧ (effectOf i s).fault = s.fault ∧ (effectOf i s).fcode = s.fcode ∧
    (effectOf i s).finfo = s.finfo ∧ (effectOf i s).faultcmd = s.faultcmd ∧ (effectOf i s).host = s.host ∧
    (effectOf i s).answer = s.answer ∧ (effectOf i s).fresh = s.fresh := by
  cases i <;> simp only [effectOf, glitterStep, glitterAge, id, and_self]

/-- An effect moves the source past the command's exchanges and does nothing else to it (20_memory.md R74). -/
theorem effectOf_source (i : Instr) (s : State) : (effectOf i s).source = afterDraws s.source (boundsOf i s) := by
  have h : s.source = afterDraws s.source [] := by simp [afterDraws]
  cases i
  case glitter => rfl
  case rsweepg => rfl
  case rconfetti => rfl
  case rcandle => rfl
  all_goals exact h

/-- A waiting command has changed pixels and the history, nothing else. -/
theorem waitingOf_eq (i : Instr) (s : State) :
    waitingOf i s = { s with glh := (waitingOf i s).glh, pix := (waitingOf i s).pix } := by
  cases i <;> rfl

/-- What no waiting command touches. -/
@[simp] theorem waitingOf_frame (i : Instr) (s : State) :
    (waitingOf i s).gindex = s.gindex ∧ (waitingOf i s).frame = s.frame ∧ (waitingOf i s).cpcnt = s.cpcnt ∧
    (waitingOf i s).beat = s.beat ∧ (waitingOf i s).cp = s.cp ∧ (waitingOf i s).params = s.params ∧
    (waitingOf i s).busy = s.busy ∧ (waitingOf i s).fault = s.fault ∧ (waitingOf i s).fcode = s.fcode ∧
    (waitingOf i s).finfo = s.finfo ∧ (waitingOf i s).faultcmd = s.faultcmd ∧ (waitingOf i s).host = s.host ∧
    (waitingOf i s).answer = s.answer ∧ (waitingOf i s).fresh = s.fresh ∧ (waitingOf i s).result = s.result ∧
    (waitingOf i s).lut = s.lut ∧ (waitingOf i s).lutv = s.lutv ∧ (waitingOf i s).sprev = s.sprev ∧
    (waitingOf i s).source = s.source := by
  rw [waitingOf_eq]; simp only [and_self]

/-! ### Steps -/

/-- One lemma per request: what `nextAction` answers on a block that is not busy. -/
theorem nextAction_read {s : State} {a : Addr} {rest : List PortEvent} (hb : s.busy = false) (h : s.host = .read a :: rest) :
    nextAction s = .done (hostRead a (takeRequest rest s)) := by
  simp [nextAction, h, hb]

theorem nextAction_store {s : State} {a : Addr} {v : Word} {rest : List PortEvent} (hb : s.busy = false)
    (h : s.host = .write a v :: rest) (ha : a ≠ cmdAddr) :
    nextAction s = .done (hostStore a v (takeRequest rest s)) := by
  simp [nextAction, h, hb, ha]

theorem nextAction_command {s : State} {v : Word} {rest : List PortEvent} (hb : s.busy = false)
    (h : s.host = .write cmdAddr v :: rest) : nextAction s = commandAction v (takeRequest rest s) := by
  simp [nextAction, h, hb]

theorem nextAction_rst {s : State} {rest : List PortEvent} (h : s.host = .rst :: rest) :
    nextAction s = .done (assertReset (takeRequest rest s)) := by
  simp [nextAction, h]

/-- Everything one step can do. -/
theorem step_cases {s t : State} (h : step s = .next t) :
    (s.host = [] ∧ s.busy = false ∧ t = s) ∨
    (∃ rest, s.host = .rst :: rest ∧ t = assertReset (takeRequest rest s)) ∨
    (s.busy = false ∧ ∃ a rest, s.host = .read a :: rest ∧ t = hostRead a (takeRequest rest s)) ∨
    (s.busy = false ∧ ∃ a v rest, s.host = .write a v :: rest ∧ a ≠ cmdAddr ∧ t = hostStore a v (takeRequest rest s)) ∨
    (s.busy = false ∧ s.fault = true ∧ ∃ v rest, s.host = .write cmdAddr v :: rest ∧ t = takeRequest rest s) ∨
    (s.busy = false ∧ s.fault = false ∧ ∃ v rest why, s.host = .write cmdAddr v :: rest ∧ decode v = .reject why ∧
      t = raiseFault .eOpcode 0 v (takeRequest rest s)) ∨
    (s.busy = false ∧ s.fault = false ∧ ∃ v rest i, s.host = .write cmdAddr v :: rest ∧ decode v = .instr i ∧
      exec i (takeRequest rest s) = .next t) := by
  unfold step at h
  rcases hh : s.host with _ | ⟨e, rest⟩
  · cases hb : s.busy
    · simp [nextAction, hh, hb] at h; exact .inl ⟨rfl, rfl, h.symm⟩
    · simp [nextAction, hh, hb] at h
  · rcases e with a | ⟨a, v⟩ | _
    · cases hb : s.busy
      · rw [nextAction_read hb hh] at h
        exact .inr (.inr (.inl ⟨rfl, a, rest, rfl, (Host.Outcome.next.inj h).symm⟩))
      · simp [nextAction, hh, hb] at h
    · cases hb : s.busy
      · by_cases ha : a = cmdAddr
        · subst ha
          rw [nextAction_command hb hh] at h
          cases hf : s.fault
          · rcases hd : decode v with i | why
            · simp [commandAction, hf, hd] at h
              exact .inr (.inr (.inr (.inr (.inr (.inr ⟨rfl, rfl, v, rest, i, rfl, hd, h⟩)))))
            · simp [commandAction, hf, hd] at h
              exact .inr (.inr (.inr (.inr (.inr (.inl ⟨rfl, rfl, v, rest, why, rfl, hd, h.symm⟩)))))
          · simp [commandAction, hf] at h
            exact .inr (.inr (.inr (.inr (.inl ⟨rfl, rfl, v, rest, rfl, h.symm⟩))))
        · rw [nextAction_store hb hh ha] at h
          exact .inr (.inr (.inr (.inl ⟨rfl, a, v, rest, rfl, ha, (Host.Outcome.next.inj h).symm⟩)))
      · simp [nextAction, hh, hb] at h
    · rw [nextAction_rst hh] at h
      exact .inr (.inl ⟨rest, rfl, (Host.Outcome.next.inj h).symm⟩)

end Machine

end Sys2Proof
end

