-- ==== Sys2Proof/Laws/Memory.lean ====
section
/-! SUPPORT. The memories: reads after writes, and that every operation keeps the canonical form. -/

namespace Sys2Proof.Machine

open Sys2Proof.Safety

theorem memory_wf_iff (s : State) :
    Memory.wf s = true ↔ s.lut.length = 16 ∧ s.cp.length = s.params.cpmax ∧ s.pix.length = s.params.n := by
  simp [Memory.wf, and_assoc]

/-! ### Elements -/

theorem pixAt_of_getElem? {pix : List Colour} {i : Nat} {c : Colour} (h : pix[i]? = some c) : pixAt pix i = c := by
  simp [pixAt, List.getD_eq_getElem?_getD, h]

theorem getElem?_of_pixAt {pix : List Colour} {i : Nat} (h : i < pix.length) : pix[i]? = some (pixAt pix i) := by
  simp [pixAt, List.getD_eq_getElem?_getD, h]

theorem lutAt_of_getElem? {lut : List Colour} {k : Nat} {c : Colour} (h : lut[k]? = some c) : lutAt lut k = c := by
  simp [lutAt, List.getD_eq_getElem?_getD, h]

theorem getElem?_of_lutAt {lut : List Colour} {k : Nat} (h : k < lut.length) : lut[k]? = some (lutAt lut k) := by
  simp [lutAt, List.getD_eq_getElem?_getD, h]

theorem getElem?_of_cpAt {cp : List ControlPoint} {j : Nat} (h : j < cp.length) : cp[j]? = some (cpAt cp j) := by
  simp [cpAt, List.getD_eq_getElem?_getD, h]

@[simp] theorem updatePixel_length (pix : List Colour) (i : Nat) (f : Colour → Colour) :
    (updatePixel pix i f).length = pix.length := by simp [updatePixel]

/-- A read after a write to the same pixel. -/
theorem pixAt_updatePixel_same {pix : List Colour} {i : Nat} (f : Colour → Colour) (h : i < pix.length) :
    pixAt (updatePixel pix i f) i = f (pixAt pix i) := by
  simp [updatePixel, pixAt, List.getD_eq_getElem?_getD, h]

/-- A write to one pixel leaves every other alone. -/
theorem pixAt_updatePixel_other {pix : List Colour} {i j : Nat} (f : Colour → Colour) (h : i ≠ j) :
    pixAt (updatePixel pix i f) j = pixAt pix j := by
  simp [updatePixel, pixAt, List.getD_eq_getElem?_getD, List.getElem?_set_ne h]

@[simp] theorem paint_length (s : State) (f : Nat → Colour) : (paint s f).length = s.params.n := by simp [paint]

theorem paint_getElem? {s : State} {f : Nat → Colour} {i : Nat} (h : i < s.params.n) : (paint s f)[i]? = some (f i) := by
  simp [paint, h]

@[simp] theorem fadeAll_length (amt : Nat) (pix : List Colour) : (fadeAll amt pix).length = pix.length := by
  simp [fadeAll]

theorem fadeAll_getElem? (amt : Nat) (pix : List Colour) (i : Nat) :
    (fadeAll amt pix)[i]? = (pix[i]?).map fun c => scaleC c (255 - amt) := by simp [fadeAll]

theorem pixAt_fadeAll {amt : Nat} {pix : List Colour} {i : Nat} (h : i < pix.length) :
    pixAt (fadeAll amt pix) i = scaleC (pixAt pix i) (255 - amt) := by
  rw [pixAt_of_getElem? (c := scaleC (pixAt pix i) (255 - amt))]
  rw [fadeAll_getElem?, getElem?_of_pixAt h]; rfl

/-- A fold of writes keeps the number of pixels. -/
theorem foldl_length {α : Type} (f : List Colour → α → List Colour) (hf : ∀ pix a, (f pix a).length = pix.length)
    (l : List α) (pix : List Colour) : (l.foldl f pix).length = pix.length := by
  induction l generalizing pix with
  | nil => rfl
  | cons a l ih => rw [List.foldl_cons, ih, hf]

/-! ### The glitter loop -/

@[simp] theorem lightSlot_length (p : Params) (hist : List (Option Half)) (pix : List Colour) (a : Nat) :
    (lightSlot p hist pix a).length = pix.length := by
  unfold lightSlot; split <;> simp

theorem glitterHistory_length {s : State} (h : s.glh.length = 18) : (glitterHistory s).length = 18 := by
  unfold glitterHistory; split <;> simp [h]

theorem glitterAge_glh_length {s : State} (h : s.glh.length = 18) : (glitterAge s).glh.length = 18 := by
  simp [glitterAge, glitterHistory_length h]

theorem glitterAge_pix_length (s : State) : (glitterAge s).pix.length = s.pix.length :=
  foldl_length _ (lightSlot_length _ _) _ _

theorem glitterStep_glh_length (chance : Nat) {s : State} (h : s.glh.length = 18) :
    (glitterStep chance s).glh.length = 18 := by
  simp [glitterStep, glitterAge_glh_length h]

theorem glitterStep_pix_length (chance : Nat) (s : State) : (glitterStep chance s).pix.length = s.pix.length :=
  glitterAge_pix_length s

/-! ### The speckle loop -/

@[simp] theorem speckle_length (s : State) (pix : List Colour) (k : Nat) : (speckle s pix k).length = pix.length :=
  updatePixel_length _ _ _

@[simp] theorem confettiPix_length (s : State) (cnt : Nat) : (confettiPix s cnt).length = s.pix.length :=
  (foldl_length _ (speckle_length s) _ _).trans (fadeAll_length _ _)

/-! ### Every operation keeps the canonical form -/

theorem effectOf_keeps_wf (i : Instr) {s : State} (h : Memory.wf s = true) : Memory.wf (effectOf i s) = true := by
  rw [memory_wf_iff] at *
  obtain ⟨hl, hc, hp⟩ := h
  have hjd : ∀ s' pix d, (juggleDot s' pix d).length = pix.length := fun s' pix d => updatePixel_length _ _ _
  cases i
  case glitter chance => exact ⟨hl, hc, (glitterStep_pix_length _ s).trans hp⟩
  case rsweepg => exact ⟨hl, hc, (glitterStep_pix_length _ { s with pix := sweepPix s }).trans (paint_length _ _)⟩
  case rconfetti => exact ⟨hl, hc, (confettiPix_length _ _).trans hp⟩
  case rjuggle =>
    exact ⟨hl, hc, (foldl_length (juggleDot s) (hjd s) _ _).trans ((fadeAll_length _ _).trans hp)⟩
  case rsinelon =>
    refine ⟨hl, hc, ?_⟩
    show List.length (List.foldl _ _ _) = _
    rw [foldl_length _ (fun pix q => List.length_set ..), List.length_set, fadeAll_length]
    exact hp
  all_goals simp [effectOf, hl, hc, hp, sweepPix]

theorem waitingOf_keeps_wf (i : Instr) {s : State} (h : Memory.wf s = true) : Memory.wf (waitingOf i s) = true := by
  rw [memory_wf_iff] at *
  obtain ⟨hl, hc, hp⟩ := h
  cases i
  case glitter chance => exact ⟨hl, hc, (glitterAge_pix_length s).trans hp⟩
  case rsweepg => exact ⟨hl, hc, (glitterAge_pix_length { s with pix := sweepPix s }).trans (paint_length _ _)⟩
  case rconfetti => exact ⟨hl, hc, (confettiPix_length _ _).trans hp⟩
  case rcandle => exact ⟨hl, hc, paint_length _ _⟩
  all_goals exact ⟨hl, hc, hp⟩

theorem raiseFault_keeps_wf (code : FaultCode) (info : Nat) (word : Word) {s : State} (h : Memory.wf s = true) :
    Memory.wf (raiseFault code info word s) = true := by
  simpa [memory_wf_iff] using h

theorem resetOf_wf (p : Params) (epoch : Nat) : Memory.wf (State.resetOf p epoch) = true := by
  simp [memory_wf_iff, State.resetOf]

theorem assertReset_wf (s : State) : Memory.wf (assertReset s) = true := by
  simp [memory_wf_iff, assertReset, State.resetOf]

theorem hostRead_keeps_wf (a : Addr) {s : State} (h : Memory.wf s = true) : Memory.wf (hostRead a s) = true := by
  unfold hostRead
  split
  · exact h
  · simpa [memory_wf_iff] using h

theorem writeTarget_keeps_wf {v : Word} {tgt : Target} {s t : State} (h : Memory.wf s = true)
    (ht : writeTarget s v tgt = some t) : Memory.wf t = true := by
  rw [memory_wf_iff] at *
  cases tgt <;> simp only [writeTarget, Option.some.injEq, reduceCtorEq] at ht
  all_goals subst ht; simpa using h

theorem hostStore_keeps_wf (a : Addr) (v : Word) {s : State} (h : Memory.wf s = true) :
    Memory.wf (hostStore a v s) = true := by
  unfold hostStore
  split
  · exact h
  · split
    · next t ht =>
      obtain ⟨tgt, -, h'⟩ := Option.bind_eq_some_iff.mp ht
      exact writeTarget_keeps_wf h h'
    · exact raiseFault_keeps_wf _ _ _ h

theorem exec_keeps_wf {i : Instr} {s t : State} (h : Memory.wf s = true) (ht : exec i s = .next t) :
    Memory.wf t = true := by
  rcases exec_cases ht with ⟨-, rfl⟩ | ⟨-, code, info, -, rfl⟩ | ⟨-, -, -, rfl⟩ | ⟨-, -, -, rfl⟩
  · exact h
  · exact raiseFault_keeps_wf _ _ _ h
  · exact effectOf_keeps_wf i h
  · exact waitingOf_keeps_wf i h

/-- Every step keeps the canonical form. -/
theorem step_keeps_wf {s t : State} (h : Memory.wf s = true) (ht : step s = .next t) : Memory.wf t = true := by
  rcases step_cases ht with ⟨-, -, rfl⟩ | ⟨rest, -, rfl⟩ | ⟨-, a, rest, -, rfl⟩ | ⟨-, a, v, rest, -, -, rfl⟩ |
    ⟨-, -, v, rest, -, rfl⟩ | ⟨-, -, v, rest, why, -, -, rfl⟩ | ⟨-, -, v, rest, i, -, -, he⟩
  · exact h
  · exact assertReset_wf _
  · exact hostRead_keeps_wf a (s := takeRequest rest s) h
  · exact hostStore_keeps_wf a v (s := takeRequest rest s) h
  · exact h
  · exact raiseFault_keeps_wf _ _ _ (s := takeRequest rest s) h
  · exact exec_keeps_wf (s := takeRequest rest s) h he

end Sys2Proof.Machine
end

