-- ==== Sys2Proof/Laws/Faults.lean ====
section
/-! SUPPORT. What `exec` answers in each case of its frame, and one law per check of 60_exceptions.md R181: when it
passes, and what it reports when it does not. -/

namespace Sys2Proof.Machine

open Sys2Proof.Safety

/-! ### The cases of the frame -/

/-- A live block's fault entry is the state with the fault registers written. -/
theorem raiseFault_eq_faulted {s : State} (h : s.fault = false) (code : FaultCode) (info : Nat) (word : Word) :
    raiseFault code info word s = faulted (faultNumber code) (BitVec.ofNat 16 info) word s := by
  simp [raiseFault, h, faulted]

/-- A command whose check fails takes the fault, with its own word. -/
theorem exec_of_check_some {i : Instr} {s : State} (hf : s.fault = false) {code : FaultCode} {info : Nat}
    (hc : checkOf i s = some (code, info)) :
    exec i s = .next (faulted (faultNumber code) (BitVec.ofNat 16 info) (encode i) s) := by
  rw [exec_eq_runCommand, runCommand_raise hf hc, raiseFault_eq_faulted hf]

/-- A command whose checks pass and whose draws are answered has its effect. -/
theorem exec_of_check_none {i : Instr} {s : State} (hf : s.fault = false) (hc : checkOf i s = none)
    (hd : answersAll s.source (boundsOf i s).length = true) : exec i s = .next (effectOf i s) := by
  rw [exec_eq_runCommand, runCommand_effect hf hc hd]

/-- A command whose checks pass and whose draws are not all answered never completes: it has done what stands before
the exchange without an answer (20_memory.md R66, R70, R74). -/
theorem exec_of_silence {i : Instr} {s : State} (hf : s.fault = false) (hc : checkOf i s = none)
    (hd : answersAll s.source (boundsOf i s).length = false) :
    exec i s = .next (hang (boundsOf i s) (waitingOf i s)) := by
  rw [exec_eq_runCommand, runCommand_silence hf hc hd]

/-- A frozen block executes nothing. -/
theorem exec_of_fault {i : Instr} {s : State} (hf : s.fault = true) : exec i s = .next s := by
  rw [exec_eq_runCommand, runCommand_frozen hf]

/-- A reset is one step. -/
theorem step_rst {s : State} {rest : List PortEvent} (h : s.host = .rst :: rest) :
    step s = .next (assertReset (takeRequest rest s)) := by
  unfold step; rw [nextAction_rst h]

/-! ### The palette checks -/

theorem checkPal_of_valid {s : State} (h : s.lutv = 0xFFFF) : checkPal s = none := by rw [checkPal, if_pos h]

theorem checkPal_of_invalid {s : State} (h : s.lutv ≠ 0xFFFF) : checkPal s = some (.eNopal, s.lutv.toNat) := by
  rw [checkPal, if_neg h]

/-- The palette check is the first check of every command that has it. -/
theorem checkOf_of_invalid {i : Instr} {s : State} (hi : checksPalette i = true) (h : s.lutv ≠ 0xFFFF) :
    checkOf i s = some (.eNopal, s.lutv.toNat) := by
  have hp := checkPal_of_invalid h
  cases i <;> simp only [checksPalette, isRender, reduceCtorEq] at hi <;>
    simp only [checkOf, checkJuggle, checkCandle, checkSinelon, hp]

theorem checkAnchors_of_valid {s : State} (h : ∀ k, k = 0 ∨ k = 4 ∨ k = 8 ∨ k = 12 → s.lutv.getLsbD k = true) :
    checkAnchors s = none := by
  rw [checkAnchors, if_neg]
  rw [h 0 (by simp), h 4 (by simp), h 8 (by simp), h 12 (by simp)]
  simp only [Bool.true_eq_false, or_self, not_false_eq_true]

theorem checkAnchors_of_invalid {s : State} (h : ∃ k, (k = 0 ∨ k = 4 ∨ k = 8 ∨ k = 12) ∧ s.lutv.getLsbD k = false) :
    checkAnchors s = some (.eNopal, s.lutv.toNat) := by
  rw [checkAnchors, if_pos]
  obtain ⟨k, rfl | rfl | rfl | rfl, h⟩ := h
  · exact .inl h
  · exact .inr (.inl h)
  · exact .inr (.inr (.inl h))
  · exact .inr (.inr (.inr h))

/-! ### The control-point list -/

theorem firstDisorder_eq_some {cp : List ControlPoint} {n j : Nat} (h1 : 1 ≤ j) (h2 : j < n)
    (hj : (cpAt cp j).pos.toNat ≤ (cpAt cp (j - 1)).pos.toNat)
    (hk : ∀ k, 1 ≤ k → k < j → (cpAt cp (k - 1)).pos.toNat < (cpAt cp k).pos.toNat) :
    firstDisorder cp n = some j := by
  rw [firstDisorder, List.find?_range'_eq_some]
  refine ⟨by simpa using hj, by simp only [List.mem_range'_1]; omega, fun k hk1 hk2 => ?_⟩
  have := hk k hk1 hk2
  simp only [Bool.not_eq_true', decide_eq_false_iff_not]; omega

theorem firstDisorder_eq_none {cp : List ControlPoint} {n : Nat} :
    firstDisorder cp n = none ↔
      ∀ k, 1 ≤ k → k < n → (cpAt cp (k - 1)).pos.toNat < (cpAt cp k).pos.toNat := by
  rw [firstDisorder, List.find?_eq_none]
  constructor
  · intro h k h1 h2
    have := h k (by rw [List.mem_range'_1]; omega)
    simp only [decide_eq_true_eq] at this; omega
  · intro h k hk
    rw [List.mem_range'_1] at hk
    have := h k hk.1 (by omega)
    simp only [decide_eq_true_eq]; omega

/-- `CheckCP` passes exactly on a well-formed list. -/
theorem checkCP_eq_none {s : State} : checkCP s = none ↔ GradientOk s := by
  unfold checkCP GradientOk; dsimp only
  split
  · constructor
    · intro h; cases h
    · intro h; omega
  · rw [show (2 ≤ s.cpcnt.toNat ∧ s.cpcnt.toNat ≤ s.params.cpmax ∧ _) ↔ _ from
      ⟨fun h => h.2.2, fun h => ⟨by omega, by omega, h⟩⟩, ← firstDisorder_eq_none]
    split <;> simp_all

theorem checkCP_of_count {s : State} (h : s.cpcnt.toNat < 2 ∨ s.params.cpmax < s.cpcnt.toNat) :
    checkCP s = some (.eCpcount, s.cpcnt.toNat) := by
  unfold checkCP; dsimp only; rw [if_pos h]

theorem checkCP_of_order {s : State} {j : Nat} (h2 : 2 ≤ s.cpcnt.toNat) (hm : s.cpcnt.toNat ≤ s.params.cpmax)
    (hj1 : 1 ≤ j) (hj2 : j < s.cpcnt.toNat) (hj : (cpAt s.cp j).pos.toNat ≤ (cpAt s.cp (j - 1)).pos.toNat)
    (hk : ∀ k, 1 ≤ k → k < j → (cpAt s.cp (k - 1)).pos.toNat < (cpAt s.cp k).pos.toNat) :
    checkCP s = some (.eCporder, j) := by
  unfold checkCP; dsimp only
  rw [if_neg (by omega), firstDisorder_eq_some hj1 hj2 hj hk]

/-- A list that is not well-formed is one of the two list faults. -/
theorem checkCP_of_not_ok {s : State} (h : ¬ GradientOk s) :
    ∃ code info, (code = .eCpcount ∨ code = .eCporder) ∧ checkCP s = some (code, info) := by
  rcases hc : checkCP s with _ | ⟨code, info⟩
  · exact absurd (checkCP_eq_none.mp hc) h
  · refine ⟨code, info, ?_, rfl⟩
    unfold checkCP at hc; dsimp only at hc
    split at hc
    · cases hc; exact .inl rfl
    · split at hc
      · cases hc; exact .inr rfl
      · cases hc

/-! ### Juggle, candle, sinelon -/

theorem checkJuggle_of_dot {s : State} {d : Nat} (hl : s.lutv = 0xFFFF) (h1 : 1 ≤ d) (h7 : d ≤ 7)
    (hd : s.params.n ≤ beatAt s d) (he : ∀ e, 1 ≤ e → e < d → beatAt s e < s.params.n) :
    checkJuggle s = some (.ePixrange, d) := by
  have hfind : ((List.range' 1 7).find? fun d => decide (s.params.n ≤ beatAt s d)) = some d := by
    rw [List.find?_range'_eq_some]
    refine ⟨by simpa using hd, by simp only [List.mem_range'_1]; omega, fun e he1 he2 => ?_⟩
    have := he e he1 he2
    simp only [Bool.not_eq_true', decide_eq_false_iff_not]; omega
  rw [checkJuggle, checkPal_of_valid hl]
  dsimp only
  rw [show [1, 2, 3, 4, 5, 6, 7] = List.range' 1 7 from rfl, hfind]

theorem checkJuggle_of_in_range {s : State} (hl : s.lutv = 0xFFFF) (h : ∀ d, 1 ≤ d → d ≤ 7 → beatAt s d < s.params.n) :
    checkJuggle s = none := by
  have hfind : ((List.range' 1 7).find? fun d => decide (s.params.n ≤ beatAt s d)) = none := by
    rw [List.find?_eq_none]
    intro d hd
    rw [List.mem_range'_1] at hd
    have := h d (by omega) (by omega)
    simp only [decide_eq_true_eq]; omega
  rw [checkJuggle, checkPal_of_valid hl]
  dsimp only
  rw [show [1, 2, 3, 4, 5, 6, 7] = List.range' 1 7 from rfl, hfind]

theorem checkCandle_of_over {s : State} (hl : s.lutv = 0xFFFF) (h : 255 < beatAt s 0 + beatAt s 1) :
    checkCandle s = some (.eBeatrange, beatAt s 0 + beatAt s 1) := by
  rw [checkCandle, checkPal_of_valid hl]
  exact if_pos h

theorem checkCandle_of_in_range {s : State} (hl : s.lutv = 0xFFFF) (h : beatAt s 0 + beatAt s 1 ≤ 255) :
    checkCandle s = none := by
  rw [checkCandle, checkPal_of_valid hl]
  exact if_neg (by omega)

theorem checkSinelon_of_no_previous {s : State} (hl : s.lutv = 0xFFFF) (hf : s.frame ≠ 0) (hp : s.sprev = none) :
    checkSinelon s = some (.eNoinit, 0) := by
  rw [checkSinelon, checkPal_of_valid hl]
  exact if_pos ⟨hf, hp⟩

theorem checkSinelon_of_ok {s : State} (hl : s.lutv = 0xFFFF) (h : s.frame = 0 ∨ s.sprev.isSome = true) :
    checkSinelon s = none := by
  rw [checkSinelon, checkPal_of_valid hl]
  refine if_neg fun h' => ?_
  rcases h with h | h
  · exact h'.1 h
  · rw [h'.2] at h; cases h

/-- Every command with a palette check takes `E_NOPAL` without a palette. -/
theorem exec_of_no_palette {i : Instr} {s : State} (hf : s.fault = false) (hi : checksPalette i = true)
    (h : s.lutv ≠ 0xFFFF) : exec i s = .next (faulted 4 s.lutv (encode i) s) := by
  rw [exec_of_check_some hf (checkOf_of_invalid hi h)]
  simp [faultNumber]

theorem exec_pblend4_of_no_anchor {s : State} (hf : s.fault = false)
    (h : ∃ k, (k = 0 ∨ k = 4 ∨ k = 8 ∨ k = 12) ∧ s.lutv.getLsbD k = false) :
    exec .pblend4 s = .next (faulted 4 s.lutv 0x03000000 s) := by
  rw [exec_of_check_some hf (i := .pblend4) (checkAnchors_of_invalid h)]
  simp [faultNumber]; rfl

/-! ### Every check and every draw -/

theorem checkPal_eq_none {s : State} : checkPal s = none ↔ s.lutv = 0xFFFF := by
  refine ⟨fun h => ?_, checkPal_of_valid⟩
  by_contra hl
  rw [checkPal_of_invalid hl] at h; cases h

theorem checkAnchors_eq_none {s : State} :
    checkAnchors s = none ↔ ∀ k, k = 0 ∨ k = 4 ∨ k = 8 ∨ k = 12 → s.lutv.getLsbD k = true := by
  refine ⟨fun h k hk => ?_, checkAnchors_of_valid⟩
  by_contra hb
  rw [checkAnchors_of_invalid ⟨k, hk, by simpa using hb⟩] at h; cases h

/-- The first dot out of range, if there is one. -/
theorem checkJuggle_eq_none {s : State} :
    checkJuggle s = none ↔ s.lutv = 0xFFFF ∧ ∀ d, 1 ≤ d → d ≤ 7 → beatAt s d < s.params.n := by
  refine ⟨fun h => ?_, fun h => checkJuggle_of_in_range h.1 h.2⟩
  have hl : s.lutv = 0xFFFF := by
    by_contra hl
    rw [checkJuggle, checkPal_of_invalid hl] at h; cases h
  refine ⟨hl, fun d => ?_⟩
  induction d using Nat.strong_induction_on with
  | _ d ih =>
    intro h1 h7
    by_contra hd
    rw [checkJuggle_of_dot hl h1 h7 (by omega) fun e he1 he2 => ih e he2 he1 (by omega)] at h; cases h

theorem checkCandle_eq_none {s : State} : checkCandle s = none ↔ s.lutv = 0xFFFF ∧ beatAt s 0 + beatAt s 1 ≤ 255 := by
  refine ⟨fun h => ?_, fun h => checkCandle_of_in_range h.1 h.2⟩
  have hl : s.lutv = 0xFFFF := by
    by_contra hl
    rw [checkCandle, checkPal_of_invalid hl] at h; cases h
  refine ⟨hl, ?_⟩
  by_contra hb
  rw [checkCandle_of_over hl (by omega)] at h; cases h

theorem checkSinelon_eq_none {s : State} :
    checkSinelon s = none ↔ s.lutv = 0xFFFF ∧ (s.frame = 0 ∨ s.sprev.isSome = true) := by
  refine ⟨fun h => ?_, fun h => checkSinelon_of_ok h.1 h.2⟩
  have hl : s.lutv = 0xFFFF := by
    by_contra hl
    rw [checkSinelon, checkPal_of_invalid hl] at h; cases h
  refine ⟨hl, ?_⟩
  by_contra hn
  rw [not_or] at hn
  rw [checkSinelon_of_no_previous hl hn.1 (by simpa using hn.2)] at h; cases h

/-- A command's check passes exactly when the conditions of its rule hold. -/
theorem checkOf_eq_none {i : Instr} {s : State} : checkOf i s = none ↔ checksPass i s := by
  cases i
  case pbuild => exact checkCP_eq_none
  case gqry => exact checkCP_eq_none
  case pblend4 => exact checkAnchors_eq_none
  case rjuggle => exact checkJuggle_eq_none
  case rcandle => exact checkCandle_eq_none
  case rsinelon => exact checkSinelon_eq_none
  case nop => exact iff_of_true rfl trivial
  case fade => exact iff_of_true rfl trivial
  case glitter => exact iff_of_true rfl trivial
  all_goals exact checkPal_eq_none

theorem glitterBounds_eq (chance : Nat) (s : State) :
    glitterBounds chance s = if draw s.source 0 256 < chance then [256, s.params.n] else [256] := by
  simp [glitterBounds, sparkles]

/-- The bounds a command presents are those its rule lists. -/
theorem boundsOf_eq_drawBounds (i : Instr) (s : State) : boundsOf i s = drawBounds i s := by
  cases i
  case glitter chance => exact glitterBounds_eq _ s
  case rsweepg => exact glitterBounds_eq _ s
  all_goals rfl

end Sys2Proof.Machine
end

