-- ==== Sys2Proof/Laws/Gradient.lean ====
section
/-! SUPPORT. `Decode`, `Sample` and the blend in closed form: the bracket of a position in a well-formed list, the
exact cases, and the sampler at an anchor. -/

namespace Sys2Proof.Machine

open Sys2Proof.Safety

/-! ### Weighted means at their ends -/

theorem lerp_zero (a b : Byte) {D : Nat} (hD : 1 ≤ D) : lerp a b 0 D = a := by
  apply BitVec.eq_of_toNat_eq
  rw [lerp_toNat a b (Nat.zero_le _) hD, Nat.sub_zero, Nat.mul_zero, Nat.add_zero, Nat.mul_div_cancel _ (by omega)]

theorem lerp_full (a b : Byte) {D : Nat} (hD : 1 ≤ D) : lerp a b D D = b := by
  apply BitVec.eq_of_toNat_eq
  rw [lerp_toNat a b (Nat.le_refl _) hD, Nat.sub_self, Nat.mul_zero, Nat.zero_add, Nat.mul_div_cancel _ (by omega)]

theorem lerpC_zero (A B : Colour) {D : Nat} (hD : 1 ≤ D) : lerpC A B 0 D = A := by simp only [lerpC, lerp_zero _ _ hD]

theorem lerpC_full (A B : Colour) {D : Nat} (hD : 1 ≤ D) : lerpC A B D D = B := by simp only [lerpC, lerp_full _ _ hD]

/-! ### Positions of a well-formed list -/

/-- Positions strictly increase, not only from one point to the next. -/
theorem pos_lt_pos {s : State} (h : GradientOk s) {j k : Nat} (hjk : j < k) (hk : k < s.cpcnt.toNat) :
    (cpAt s.cp j).pos.toNat < (cpAt s.cp k).pos.toNat := by
  induction k with
  | zero => omega
  | succ k ih =>
    have hstep := h.2.2 (k + 1) (by omega) hk
    rw [Nat.add_sub_cancel] at hstep
    by_cases he : j = k
    · subst he; exact hstep
    · have := ih (by omega) (by omega); omega

theorem pos_le_pos {s : State} (h : GradientOk s) {j k : Nat} (hjk : j ≤ k) (hk : k < s.cpcnt.toNat) :
    (cpAt s.cp j).pos.toNat ≤ (cpAt s.cp k).pos.toNat := by
  rcases Nat.lt_or_eq_of_le hjk with h' | rfl
  · exact Nat.le_of_lt (pos_lt_pos h h' hk)
  · exact Nat.le_refl _

/-- "exists and is unique: positions strictly increase" (40_palette_build.md R101). -/
theorem bracket_eq {s : State} (h : GradientOk s) {i j : Nat} (hj : j + 1 < s.cpcnt.toNat)
    (h1 : (cpAt s.cp j).pos.toNat ≤ i) (h2 : i < (cpAt s.cp (j + 1)).pos.toNat) :
    bracket s.cp s.cpcnt.toNat i = j := by
  have hfind : ((List.range' 0 (s.cpcnt.toNat - 1)).find? fun j =>
      decide ((cpAt s.cp j).pos.toNat ≤ i) && decide (i < (cpAt s.cp (j + 1)).pos.toNat)) = some j := by
    rw [List.find?_range'_eq_some]
    refine ⟨by simp [h1, h2], by rw [List.mem_range'_1]; omega, fun k _ hk => ?_⟩
    have := pos_le_pos h (j := k + 1) (k := j) (by omega) (by omega)
    have hk : ¬ i < (cpAt s.cp (k + 1)).pos.toNat := by omega
    simp [hk]
  rw [bracket, List.range_eq_range', hfind]; rfl

/-- `Decode` strictly inside the list. -/
theorem decodeGradient_between {s : State} (h : GradientOk s) {i j : Nat} (hj : j + 1 < s.cpcnt.toNat)
    (h1 : (cpAt s.cp j).pos.toNat ≤ i) (h2 : i < (cpAt s.cp (j + 1)).pos.toNat) :
    decodeGradient s.cp s.cpcnt.toNat i =
      lerpC (cpAt s.cp j).rgb (cpAt s.cp (j + 1)).rgb (i - (cpAt s.cp j).pos.toNat)
        ((cpAt s.cp (j + 1)).pos.toNat - (cpAt s.cp j).pos.toNat) := by
  have hlast : i < (cpAt s.cp (s.cpcnt.toNat - 1)).pos.toNat :=
    Nat.lt_of_lt_of_le h2 (pos_le_pos h (by omega) (by omega))
  unfold decodeGradient
  by_cases h0 : i ≤ (cpAt s.cp 0).pos.toNat
  · have hj0 : j = 0 := by
      by_contra hne
      have := pos_lt_pos h (j := 0) (k := j) (by omega) (by omega)
      omega
    subst hj0
    rw [if_pos h0, show i - (cpAt s.cp 0).pos.toNat = 0 by omega, lerpC_zero _ _ (by omega)]
  · rw [if_neg h0, if_neg (by omega), bracket_eq h hj h1 h2]

theorem decodeGradient_first {s : State} {i : Nat} (h : i ≤ (cpAt s.cp 0).pos.toNat) :
    decodeGradient s.cp s.cpcnt.toNat i = (cpAt s.cp 0).rgb := by rw [decodeGradient, if_pos h]

theorem decodeGradient_last {s : State} (h : GradientOk s) {i : Nat}
    (hi : (cpAt s.cp (s.cpcnt.toNat - 1)).pos.toNat ≤ i) :
    decodeGradient s.cp s.cpcnt.toNat i = (cpAt s.cp (s.cpcnt.toNat - 1)).rgb := by
  have := pos_lt_pos h (j := 0) (k := s.cpcnt.toNat - 1) (by have := h.1; omega) (by have := h.1; omega)
  rw [decodeGradient, if_neg (by omega), if_pos hi]

/-- "the exact point if i matches a position" (R101). -/
theorem decodeGradient_anchor {s : State} (h : GradientOk s) {j : Nat} (hj : j < s.cpcnt.toNat) :
    decodeGradient s.cp s.cpcnt.toNat (cpAt s.cp j).pos.toNat = (cpAt s.cp j).rgb := by
  by_cases hl : j = s.cpcnt.toNat - 1
  · rw [hl]; exact decodeGradient_last h (Nat.le_refl _)
  · have := pos_lt_pos h (j := j) (k := j + 1) (by omega) (by omega)
    rw [decodeGradient_between h (by omega) (Nat.le_refl _) this, Nat.sub_self, lerpC_zero _ _ (by omega)]

/-! ### The sampler -/

/-- Sampling an anchor gives the anchor (41_sampler.md R121). -/
theorem sampleLut_anchor (lut : List Colour) {i : Byte} (h : i.toNat % 16 = 0) :
    sampleLut lut i = lutAt lut (i.toNat / 16) := by
  unfold sampleLut; dsimp only
  rw [h, lerpC_zero _ _ (by omega)]

/-- Entry `k` is the anchor of index `16*k`. -/
theorem sampleLut_at_entry (lut : List Colour) {k : Nat} (hk : k < 16) :
    sampleLut lut (BitVec.ofNat 8 (16 * k)) = lutAt lut k := by
  have h : (BitVec.ofNat 8 (16 * k)).toNat = 16 * k := by rw [BitVec.toNat_ofNat]; omega
  rw [sampleLut_anchor lut (by omega), h]
  congr 1; omega

/-- `Idx(off)`, with its reduction written out (R123). -/
theorem sampleAt_eq (s : State) (off : Nat) :
    sampleAt s off = sampleLut s.lut (BitVec.ofNat 8 ((s.gindex.toNat + off) % 256)) := by
  unfold sampleAt paletteIndex
  congr 1
  apply BitVec.eq_of_toNat_eq
  simp only [BitVec.toNat_ofNat]; omega

theorem sampleAt_zero (s : State) : sampleAt s 0 = sampleLut s.lut s.gindex := by
  unfold sampleAt paletteIndex
  rw [Nat.add_zero, BitVec.ofNat_toNat, BitVec.setWidth_eq]

/-- The entries of a table built by index. -/
theorem getElem?_range_map {α : Type} (f : Nat → α) {n k : Nat} (hk : k < n) : ((List.range n).map f)[k]? = some (f k) := by
  simp [hk]

end Sys2Proof.Machine
end

