-- ==== Sys2Proof/Laws/Overlays.lean ====
section
/-! SUPPORT. The pixel loops in closed form, per channel: adding colours saturates to the sum, maxing takes the
maximum, the trail overwrites, and the glitter history ages. -/

namespace Sys2Proof.Machine

open Sys2Proof.Safety

/-! ### One pixel of one loop iteration -/

/-- Adding a colour to one pixel, seen from any pixel. -/
theorem chan_updatePixel_add {pix : List Colour} {i : Nat} (ch : Channel) (p : Nat) (c : Colour) (hi : i < pix.length) :
    chan ch (pixAt (updatePixel pix p fun d => addSatC d c) i) =
      min 255 (chan ch (pixAt pix i) + if p = i then chan ch c else 0) := by
  by_cases hp : p = i
  · subst hp; rw [pixAt_updatePixel_same _ hi, chan_addSatC, if_pos rfl]
  · have := chan_lt ch (pixAt pix i)
    rw [pixAt_updatePixel_other _ hp, if_neg hp]; omega

/-- Maxing a colour into one pixel, seen from any pixel. -/
theorem chan_updatePixel_max {pix : List Colour} {i : Nat} (ch : Channel) (p : Nat) (c : Colour) (hi : i < pix.length) :
    chan ch (pixAt (updatePixel pix p fun d => maxC d c) i) =
      max (chan ch (pixAt pix i)) (if p = i then chan ch c else 0) := by
  by_cases hp : p = i
  · subst hp; rw [pixAt_updatePixel_same _ hi, chan_maxC, if_pos rfl]
  · rw [pixAt_updatePixel_other _ hp, if_neg hp, Nat.max_zero]

/-! ### Whole loops -/

/-- A loop of saturating adds is the saturated sum (00_scope.md R9). -/
theorem chan_foldl_add {α : Type} (f : List Colour → α → List Colour) (g : α → Nat) (ch : Channel) (i : Nat)
    (hlen : ∀ pix a, (f pix a).length = pix.length)
    (hf : ∀ pix a, i < pix.length → chan ch (pixAt (f pix a) i) = min 255 (chan ch (pixAt pix i) + g a))
    (l : List α) (pix : List Colour) (hi : i < pix.length) :
    chan ch (pixAt (l.foldl f pix) i) = min 255 (chan ch (pixAt pix i) + (l.map g).sum) := by
  induction l generalizing pix with
  | nil => have := chan_lt ch (pixAt pix i); simp only [List.foldl_nil, List.map_nil, List.sum_nil]; omega
  | cons a l ih =>
    rw [List.foldl_cons, ih (f pix a) (by rw [hlen]; exact hi), hf pix a hi, List.map_cons, List.sum_cons]
    omega

/-- A loop of maxima is the maximum (00_scope.md R10). -/
theorem chan_foldl_max {α : Type} (f : List Colour → α → List Colour) (g : α → Nat) (ch : Channel) (i : Nat)
    (hlen : ∀ pix a, (f pix a).length = pix.length)
    (hf : ∀ pix a, i < pix.length → chan ch (pixAt (f pix a) i) = max (chan ch (pixAt pix i)) (g a))
    (l : List α) (pix : List Colour) (hi : i < pix.length) :
    chan ch (pixAt (l.foldl f pix) i) = (l.map g).foldl max (chan ch (pixAt pix i)) := by
  induction l generalizing pix with
  | nil => rfl
  | cons a l ih =>
    rw [List.foldl_cons, ih (f pix a) (by rw [hlen]; exact hi), hf pix a hi, List.map_cons, List.foldl_cons]

/-- A loop of writes of one colour, seen from a pixel none of them hits. -/
theorem getElem?_foldl_set_other {α : Type} (pos : α → Nat) (c : Colour) (l : List α) (pix : List Colour) {i : Nat}
    (h : ∀ q ∈ l, pos q ≠ i) : (l.foldl (fun pix q => pix.set (pos q) c) pix)[i]? = pix[i]? := by
  induction l generalizing pix with
  | nil => rfl
  | cons a l ih =>
    rw [List.foldl_cons, ih _ fun q hq => h q (List.mem_cons_of_mem _ hq),
      List.getElem?_set_ne (h a List.mem_cons_self)]

/-- The same loop, seen from a pixel one of them hits. -/
theorem getElem?_foldl_set_hit {α : Type} (pos : α → Nat) (c : Colour) (l : List α) (pix : List Colour) {i : Nat}
    (hi : i < pix.length) (h : ∃ q ∈ l, pos q = i) :
    (l.foldl (fun pix q => pix.set (pos q) c) pix)[i]? = some c := by
  induction l generalizing pix with
  | nil => obtain ⟨q, hq, -⟩ := h; cases hq
  | cons a l ih =>
    rw [List.foldl_cons]
    by_cases hl : ∃ q ∈ l, pos q = i
    · exact ih _ (by rw [List.length_set]; exact hi) hl
    · obtain ⟨q, hq, rfl⟩ := h
      rcases List.mem_cons.mp hq with rfl | hq
      · rw [getElem?_foldl_set_other _ _ _ _ fun q' hq' h' => hl ⟨q', hq', h'⟩, List.getElem?_set_self hi]
      · exact absurd ⟨q, hq, rfl⟩ hl

/-! ### Speckles, dots, trail -/

@[simp] theorem juggleDot_length (s : State) (pix : List Colour) (d : Nat) : (juggleDot s pix d).length = pix.length :=
  updatePixel_length _ _ _

theorem mem_trailPositions {prev pos q : Nat} :
    q ∈ trailPositions prev pos ↔ (prev < q ∧ q < pos) ∨ (pos < q ∧ q < prev) := by
  unfold trailPositions
  split
  · rw [List.mem_range'_1]; omega
  · split
    · rw [List.mem_range'_1]; omega
    · simp only [List.not_mem_nil, false_iff]; omega

/-- The pixels after `Fade(10)` and some speckles (R146). -/
theorem chan_confettiPix (s : State) (cnt : Nat) (ch : Channel) {i : Nat} (hi : i < s.pix.length) :
    chan ch (pixAt (confettiPix s cnt) i) = min 255 (chan ch (pixAt s.pix i) * 245 / 255 +
      ((List.range cnt).map fun k =>
        if draw s.source k s.params.n = i then chan ch (sampleAt s (16 * k)) else 0).sum) := by
  have hl : i < (fadeAll 10 s.pix).length := by rwa [fadeAll_length]
  have h := chan_foldl_add (speckle s)
    (fun k => if draw s.source k s.params.n = i then chan ch (sampleAt s (16 * k)) else 0) ch i (speckle_length s)
    (fun pix a hi' => chan_updatePixel_add ch _ _ hi') (List.range cnt) _ hl
  rwa [pixAt_fadeAll hi, chan_scaleC ch _ (by omega)] at h

/-! ### Glitter -/

/-- What one history slot adds to pixel `i`. -/
theorem chan_lightSlot (p : Params) (hist : List (Option Half)) (ch : Channel) {i : Nat} (hi16 : i < 65536)
    (pix : List Colour) (a : Nat) (hi : i < pix.length) :
    chan ch (pixAt (lightSlot p hist pix a) i) =
      min 255 (chan ch (pixAt pix i) +
        if hist.getD (a - 1) none = some (BitVec.ofNat 16 i) then p.glitB a else 0) := by
  unfold lightSlot
  rcases hist.getD (a - 1) none with _ | idx
  · have := chan_lt ch (pixAt pix i)
    dsimp only; rw [if_neg (by simp)]; omega
  · dsimp only
    have hb := p.glitB_le a
    rw [chan_updatePixel_add ch _ _ hi, chan_grey ch (by omega)]
    have : idx.toNat = i ↔ some idx = some (BitVec.ofNat 16 i) := by
      rw [Option.some.injEq, ← BitVec.toNat_inj, BitVec.toNat_ofNat, Nat.mod_eq_of_lt hi16]
    simp only [this]

/-- The pixels after the loop of a glitter step (42_overlays.md R143 loop (2)). -/
theorem chan_glitterAge (s : State) (ch : Channel) {i : Nat} (hi16 : i < 65536) (hi : i < s.pix.length) :
    chan ch (pixAt (glitterAge s).pix i) =
      min 255 (chan ch (pixAt s.pix i) +
        (agesDown.map fun a =>
          if (glitterHistory s).getD (a - 1) none = some (BitVec.ofNat 16 i) then s.params.glitB a else 0).sum) :=
  chan_foldl_add _ _ ch i (lightSlot_length _ _)
    (fun pix a h => chan_lightSlot s.params (glitterHistory s) ch hi16 pix a h) agesDown s.pix hi

/-- The draws of a glitter step come after its lights. -/
theorem glitterStep_pix (chance : Nat) (s : State) : (glitterStep chance s).pix = (glitterAge s).pix := rfl

/-- The pixels after a glitter step. -/
theorem chan_glitterStep (chance : Nat) (s : State) (ch : Channel) {i : Nat} (hi16 : i < 65536) (hi : i < s.pix.length) :
    chan ch (pixAt (glitterStep chance s).pix i) =
      min 255 (chan ch (pixAt s.pix i) +
        (agesDown.map fun a =>
          if (glitterHistory s).getD (a - 1) none = some (BitVec.ofNat 16 i) then s.params.glitB a else 0).sum) :=
  chan_glitterAge s ch hi16 hi

/-- An empty history lights nothing. -/
theorem foldl_lightSlot_empty (p : Params) (n : Nat) (l : List Nat) (pix : List Colour) :
    l.foldl (lightSlot p (List.replicate n none)) pix = pix := by
  have h : ∀ a pix, lightSlot p (List.replicate n none) pix a = pix := by
    intro a pix
    have : (List.replicate n (none : Option Half)).getD (a - 1) none = none := by
      rw [List.getD_eq_getElem?_getD, List.getElem?_replicate]; split <;> rfl
    unfold lightSlot; rw [this]
  induction l generalizing pix with
  | nil => rfl
  | cons a l ih => rw [List.foldl_cons, h, ih]

/-- On the first frame the history is empty; later it is the one in the registers. -/
theorem glitterHistory_first {s : State} (h : s.frame = 0) : glitterHistory s = List.replicate 18 none := if_pos h
theorem glitterHistory_later {s : State} (h : s.frame ≠ 0) : glitterHistory s = s.glh := if_neg h

/-- On the first frame nothing is remembered, so nothing is lit. -/
theorem glitterAge_pix_first {s : State} (h : s.frame = 0) : (glitterAge s).pix = s.pix := by
  show List.foldl (lightSlot s.params (glitterHistory s)) s.pix agesDown = s.pix
  rw [glitterHistory_first h]; exact foldl_lightSlot_empty _ _ _ _

/-- Every slot is one frame older: slot `a + 1` takes what slot `a` held (R143). -/
theorem glitterAge_glh_succ (s : State) {a : Nat} (ha : a < 17) : (glitterAge s).glh[a + 1]? = (glitterHistory s)[a]? := by
  show (_ :: (glitterHistory s).take 17)[a + 1]? = _
  rw [List.getElem?_cons_succ, List.getElem?_take_of_lt ha]

/-- Slot 0 waits for the draws. -/
theorem glitterAge_glh_zero {s : State} (h : s.glh.length = 18) : (glitterAge s).glh[0]? = (glitterHistory s)[0]? := by
  have hl := glitterHistory_length h
  show some ((glitterHistory s).getD 0 none) = _
  rw [List.getD_eq_getElem?_getD, List.getElem?_eq_getElem (by omega)]; rfl

theorem glitterStep_glh_succ (chance : Nat) (s : State) {a : Nat} (ha : a < 17) :
    (glitterStep chance s).glh[a + 1]? = (glitterHistory s)[a]? :=
  glitterAge_glh_succ s ha

theorem glitterStep_glh_zero (chance : Nat) (s : State) : (glitterStep chance s).glh[0]? = some (newSlot chance s) := rfl

/-- A glitter step reads and changes nothing but the history, the pixels and the source. -/
theorem glitterStep_frame (chance : Nat) (s : State) :
    glitterStep chance s =
      { s with glh := (glitterStep chance s).glh, pix := (glitterStep chance s).pix,
               source := (glitterStep chance s).source } := rfl

/-- The history a step leaves depends on the history before only through what it shifts. -/
theorem glitterStep_glh (chance : Nat) (s : State) :
    (glitterStep chance s).glh = newSlot chance s :: (glitterHistory s).take 17 := rfl

/-- The number of draws of a glitter step is one or two (R143). -/
theorem glitterBounds_length_le (chance : Nat) (s : State) : (glitterBounds chance s).length ≤ 2 := by
  unfold glitterBounds; split <;> simp

end Sys2Proof.Machine
end

