-- ==== Sys2Proof/Laws/PerInstr.lean ====
section
/-! SUPPORT. One law per constructor: the command word holds the opcode of R82 in bits 31:24 and zero in bits 23:16. -/

namespace Sys2Proof.Laws.OpcodeField

/-- The word of a command has its opcode in bits 31:24 and zero in bits 23:16 (30_encoding.md R80). -/
def Statement (i : Instr) : Prop := opField (encode i) = opcode i ∧ zeroField (encode i) = 0

theorem nop : Statement .nop := ⟨opField_packCommand _ _ _, zeroField_packCommand _ _ _⟩
theorem pbuild : Statement .pbuild := ⟨opField_packCommand _ _ _, zeroField_packCommand _ _ _⟩
theorem gqry (pos : Byte) : Statement (.gqry pos) := ⟨opField_packCommand _ _ _, zeroField_packCommand _ _ _⟩
theorem pblend4 : Statement .pblend4 := ⟨opField_packCommand _ _ _, zeroField_packCommand _ _ _⟩
theorem sample (idx : Byte) : Statement (.sample idx) := ⟨opField_packCommand _ _ _, zeroField_packCommand _ _ _⟩
theorem sampleb (idx bri : Byte) : Statement (.sampleb idx bri) := ⟨opField_packCommand _ _ _, zeroField_packCommand _ _ _⟩
theorem rsweep : Statement .rsweep := ⟨opField_packCommand _ _ _, zeroField_packCommand _ _ _⟩
theorem rsweepg : Statement .rsweepg := ⟨opField_packCommand _ _ _, zeroField_packCommand _ _ _⟩
theorem rleader : Statement .rleader := ⟨opField_packCommand _ _ _, zeroField_packCommand _ _ _⟩
theorem rdist : Statement .rdist := ⟨opField_packCommand _ _ _, zeroField_packCommand _ _ _⟩
theorem rconfetti : Statement .rconfetti := ⟨opField_packCommand _ _ _, zeroField_packCommand _ _ _⟩
theorem rjuggle : Statement .rjuggle := ⟨opField_packCommand _ _ _, zeroField_packCommand _ _ _⟩
theorem rsinelon : Statement .rsinelon := ⟨opField_packCommand _ _ _, zeroField_packCommand _ _ _⟩
theorem rcandle : Statement .rcandle := ⟨opField_packCommand _ _ _, zeroField_packCommand _ _ _⟩
theorem fade (amt : Byte) : Statement (.fade amt) := ⟨opField_packCommand _ _ _, zeroField_packCommand _ _ _⟩
theorem glitter (chance : Byte) : Statement (.glitter chance) := ⟨opField_packCommand _ _ _, zeroField_packCommand _ _ _⟩

end Sys2Proof.Laws.OpcodeField
end

