-- ==== Sys2Proof/Laws/Port.lean ====
section
/-! SUPPORT. The host port: what each address names, and what each kind of access does in one step. -/

namespace Sys2Proof.Machine

open Sys2Proof.Safety

/-! ### The address map -/

section AddressMap
variable {p : Params} {a : Addr}

theorem addressMap_beat (h1 : 0x008 ≤ a.toNat) (h2 : a.toNat < 0x010) : addressMap p a = some (.beat (a.toNat - 0x008)) := by
  unfold addressMap; dsimp only
  repeat rw [if_neg (by omega)]
  rw [if_pos (by omega)]

theorem addressMap_lut (h1 : 0x010 ≤ a.toNat) (h2 : a.toNat < 0x020) : addressMap p a = some (.lut (a.toNat - 0x010)) := by
  unfold addressMap; dsimp only
  repeat rw [if_neg (by omega)]
  rw [if_pos (by omega)]

theorem addressMap_glh (h1 : 0x020 ≤ a.toNat) (h2 : a.toNat < 0x032) : addressMap p a = some (.glh (a.toNat - 0x020)) := by
  unfold addressMap; dsimp only
  repeat rw [if_neg (by omega)]
  rw [if_pos (by omega)]

theorem addressMap_cp (h1 : 0x040 ≤ a.toNat) (h2 : a.toNat < 0x040 + p.cpmax) :
    addressMap p a = some (.cp (a.toNat - 0x040)) := by
  unfold addressMap; dsimp only
  repeat rw [if_neg (by omega)]
  rw [if_pos (by omega)]

theorem addressMap_pix (h1 : 0x400 ≤ a.toNat) (h2 : a.toNat < 0x400 + p.n) :
    addressMap p a = some (.pix (a.toNat - 0x400)) := by
  have := p.cpmax_le
  unfold addressMap; dsimp only
  repeat rw [if_neg (by omega)]
  rw [if_pos (by omega)]

/-- The address number of a target, with the element numbers its file has (10_state.md R20). -/
def isAt (p : Params) (n : Nat) : Target → Prop
  | .cmd      => n = 0x000
  | .status   => n = 0x001
  | .gindex   => n = 0x002
  | .frame    => n = 0x003
  | .cpcnt    => n = 0x004
  | .result   => n = 0x005
  | .npix     => n = 0x006
  | .lutv     => n = 0x007
  | .beat d   => n = 0x008 + d ∧ d < 8
  | .lut k    => n = 0x010 + k ∧ k < 16
  | .glh a    => n = 0x020 + a ∧ a < 18
  | .sprev    => n = 0x032
  | .faultcmd => n = 0x033
  | .cp j     => n = 0x040 + j ∧ j < p.cpmax
  | .pix i    => n = 0x400 + i ∧ i < p.n

/-- What the map answers: the target whose place the address is, or nothing at an address of 20_memory.md R65. -/
theorem addressMap_spec (p : Params) (a : Addr) :
    (∃ t, addressMap p a = some t ∧ isAt p a.toNat t) ∨ (addressMap p a = none ∧ unmapped p a) := by
  have hc := p.cpmax_le
  have hn := p.n_le
  have ha := a.isLt
  have hif : ∀ (c : Prop) [Decidable c] (t : Target) (e : Option Target), (c → isAt p a.toNat t) →
      (¬ c → (∃ t, e = some t ∧ isAt p a.toNat t) ∨ (e = none ∧ unmapped p a)) →
      (∃ u, (if c then some t else e) = some u ∧ isAt p a.toNat u) ∨ ((if c then some t else e) = none ∧ unmapped p a) := by
    intro c _ t e h1 h2
    by_cases hc : c
    · simp only [if_pos hc]; exact .inl ⟨t, rfl, h1 hc⟩
    · simp only [if_neg hc]; exact h2 hc
  unfold addressMap; dsimp only
  refine hif _ _ _ id fun h0 => hif _ _ _ id fun h1 => hif _ _ _ id fun h2 => hif _ _ _ id fun h3 =>
    hif _ _ _ id fun h4 => hif _ _ _ id fun h5 => hif _ _ _ id fun h6 => hif _ _ _ id fun h7 =>
    hif _ _ _ (fun h => ⟨by omega, by omega⟩) fun h8 => hif _ _ _ (fun h => ⟨by omega, by omega⟩) fun h9 =>
    hif _ _ _ (fun h => ⟨by omega, by omega⟩) fun h10 => hif _ _ _ id fun h11 => hif _ _ _ id fun h12 =>
    hif _ _ _ (fun h => ⟨by omega, by omega⟩) fun h13 => hif _ _ _ (fun h => ⟨by omega, by omega⟩) fun h14 =>
    .inr ⟨rfl, ?_⟩
  unfold unmapped; omega

theorem isAt_of_addressMap {t : Target} (h : addressMap p a = some t) : isAt p a.toNat t := by
  rcases addressMap_spec p a with ⟨u, hu, hat⟩ | ⟨hn, -⟩
  · rw [h] at hu; cases hu; exact hat
  · rw [h] at hn; cases hn

/-- No place is unmapped. -/
theorem not_unmapped_of_isAt {t : Target} (h : isAt p a.toNat t) : ¬ unmapped p a := by
  have hc := p.cpmax_le
  have hn := p.n_le
  unfold unmapped
  cases t <;> simp only [isAt] at h <;> omega

/-- Exactly the addresses of 20_memory.md R65 name nothing. -/
theorem addressMap_eq_none : addressMap p a = none ↔ unmapped p a := by
  rcases addressMap_spec p a with ⟨t, ht, hat⟩ | ⟨hn, hu⟩
  · simp only [ht, reduceCtorEq, not_unmapped_of_isAt hat]
  · simp only [hn, hu]

/-- What an address names is at that address. -/
theorem targetAddr_of_addressMap {t : Target} (h : addressMap p a = some t) : targetAddr t = a := by
  have hat := isAt_of_addressMap h
  apply BitVec.eq_of_toNat_eq
  have ha := a.isLt
  cases t <;> simp only [isAt] at hat <;> first
    | exact hat.symm
    | simp only [targetAddr, BitVec.toNat_ofNat]; omega

/-- The targets a host may not write are those at the read-only addresses. -/
theorem readOnly_of_addressMap {t : Target} (h : addressMap p a = some t) :
    readOnly a ↔ t = .status ∨ t = .result ∨ t = .npix ∨ t = .lutv ∨ (∃ g, t = .glh g) ∨ t = .sprev ∨ t = .faultcmd := by
  have hat := isAt_of_addressMap h
  unfold readOnly
  cases t <;> simp only [isAt] at hat <;> simp <;> omega

end AddressMap

/-! ### What an address reads as -/

/-- Only the fields of the block matter to a read. -/
theorem readWord_takeRequest (rest : List PortEvent) (s : State) (a : Addr) :
    readWord (takeRequest rest s) a = readWord s a := by
  unfold readWord; rw [takeRequest_params]
  split
  · rename_i t _; cases t <;> rfl
  · rfl

/-- A read finds no word exactly at `CMD` and at the unmapped addresses. -/
theorem readWord_eq_none {s : State} {a : Addr} : readWord s a = none ↔ a = 0x000 ∨ unmapped s.params a := by
  unfold readWord
  rcases h : addressMap s.params a with _ | t
  · simp [addressMap_eq_none.mp h]
  · have hu : ¬ unmapped s.params a := by rw [← addressMap_eq_none, h]; simp
    have ht := targetAddr_of_addressMap h
    have : readTarget s t = none ↔ t = .cmd := by cases t <;> simp [readTarget]; split <;> simp
    simp only [this, hu, or_false]
    constructor
    · rintro rfl; exact ht.symm
    · rintro rfl; exact (Option.some.inj h).symm

/-! ### One step of each kind of access -/

/-- `FINFO` of an access fault is the 12-bit word address zero-extended (60_exceptions.md R171). -/
theorem ofNat_addr (a : Addr) : BitVec.ofNat 16 a.toNat = a.setWidth 16 := by
  apply BitVec.eq_of_toNat_eq; simp

section Access
variable {s : State} {a : Addr} {v : Word} {rest : List PortEvent}

/-- A read of a readable word answers it. -/
theorem step_read_of_some {w : Word} (hb : s.busy = false) (hh : s.host = .read a :: rest) (hw : readWord s a = some w) :
    ∃ f, step s = .next { s with host := rest, answer := some w, fresh := f } := by
  unfold step; rw [nextAction_read hb hh]
  unfold hostRead; rw [readWord_takeRequest, hw]
  exact ⟨_, rfl⟩

/-- A read of anything else faults. -/
theorem step_read_of_none (hb : s.busy = false) (hf : s.fault = false) (hh : s.host = .read a :: rest)
    (hw : readWord s a = none) :
    step s = .next (faulted 8 (a.setWidth 16) 0 { s with host := rest, answer := some 0 }) := by
  unfold step; rw [nextAction_read hb hh]
  unfold hostRead; rw [readWord_takeRequest, hw]
  dsimp only
  rw [raiseFault_eq_faulted (s := takeRequest rest s) hf, ofNat_addr]
  rfl

/-- On a frozen block it answers 0. -/
theorem step_read_of_none_frozen (hb : s.busy = false) (hf : s.fault = true) (hh : s.host = .read a :: rest)
    (hw : readWord s a = none) : step s = .next { s with host := rest, answer := some 0 } := by
  unfold step; rw [nextAction_read hb hh]
  unfold hostRead; rw [readWord_takeRequest, hw]
  dsimp only
  rw [raiseFault, if_pos (by exact hf)]
  rfl

/-- A write to a word that stores stores it. -/
theorem step_write_of_some {t : Target} {u : State} (hb : s.busy = false) (hf : s.fault = false)
    (hh : s.host = .write a v :: rest) (ha : a ≠ 0x000) (ht : addressMap s.params a = some t)
    (hu : writeTarget (takeRequest rest s) v t = some u) : step s = .next u := by
  unfold step; rw [nextAction_store hb hh ha]
  dsimp only
  unfold hostStore
  rw [if_neg (by simp [hf]), takeRequest_params, ht, Option.bind_some, hu]

/-- A write to a read-only or unmapped address faults. -/
theorem step_write_of_none (hb : s.busy = false) (hf : s.fault = false) (hh : s.host = .write a v :: rest)
    (ha : readOnly a ∨ unmapped s.params a) :
    step s = .next (faulted 8 (a.setWidth 16) 0 { s with host := rest, answer := none }) := by
  have ha0 : a ≠ cmdAddr := by
    rintro rfl
    have : cmdAddr.toNat = 0 := rfl
    rcases ha with ha | ha
    · unfold readOnly at ha; omega
    · unfold unmapped at ha; omega
  unfold step; rw [nextAction_store hb hh ha0]
  dsimp only
  unfold hostStore
  have hn : (addressMap (takeRequest rest s).params a).bind (writeTarget (takeRequest rest s) v) = none := by
    rw [takeRequest_params]
    rcases h : addressMap s.params a with _ | t
    · rfl
    · have hu : ¬ unmapped s.params a := by rw [← addressMap_eq_none, h]; simp
      rcases (readOnly_of_addressMap h).mp (ha.resolve_right hu) with rfl | rfl | rfl | rfl | ⟨g, rfl⟩ | rfl | rfl <;> rfl
  rw [if_neg (by simp [hf]), hn]
  dsimp only
  rw [raiseFault_eq_faulted (s := takeRequest rest s) hf, ofNat_addr]
  rfl

end Access

end Sys2Proof.Machine
end

