-- ==== Sys2Proof/Tests/Slice0.lean ====
section
/-! SUPPORT. Small tests. Expected results come from 30_encoding.md and 95_test_vectors.md (the section is named at each
group); the last part shows, for every statement with hypotheses, a state and operands that meet them. -/

namespace Sys2Proof.Tests

open Sys2Proof Sys2Proof.Machine Sys2Proof.Safety

/-! ### WellFormed: one ill-formed term for each check (00_scope.md R4) -/

theorem test_default_params_well_formed : RawParams.default.wellFormed = true := by decide
theorem test_largest_params_well_formed :
    RawParams.wellFormed ⟨1024, 64, .hold, List.replicate 17 90, 255⟩ = true := by decide
theorem test_no_pixels_refused : RawParams.wellFormed { RawParams.default with n := 0 } = false := by decide
theorem test_too_many_pixels_refused : RawParams.wellFormed { RawParams.default with n := 1025 } = false := by decide
theorem test_cpmax_one_refused : RawParams.wellFormed { RawParams.default with cpmax := 1 } = false := by decide
theorem test_cpmax_65_refused : RawParams.wellFormed { RawParams.default with cpmax := 65 } = false := by decide
theorem test_glitter_table_short_refused :
    RawParams.wellFormed { RawParams.default with glitB := List.replicate 16 0 } = false := by decide
theorem test_glitter_brightness_91_refused :
    RawParams.wellFormed { RawParams.default with glitB := 91 :: List.replicate 16 0 } = false := by decide
theorem test_glitter_table_increasing_refused :
    RawParams.wellFormed { RawParams.default with glitB := 1 :: 2 :: List.replicate 15 0 } = false := by decide
theorem test_juggle_step_256_refused :
    RawParams.wellFormed { RawParams.default with juggleStep := 256 } = false := by decide
theorem test_every_command_well_formed : (Instr.sampleb 255 255).wellFormed = true := by decide

/-! ### Decoding: every constructor by a word written out (95_test_vectors.md 2.11) -/

theorem test_decode_nop : decode 0x00000000 = .instr .nop := by decide
theorem test_decode_pbuild : decode 0x01000000 = .instr .pbuild := by decide
theorem test_decode_gqry : decode 0x02000080 = .instr (.gqry 128) := by decide
theorem test_decode_pblend4 : decode 0x03000000 = .instr .pblend4 := by decide
theorem test_decode_sample : decode 0x100000FA = .instr (.sample 250) := by decide
theorem test_decode_sampleb : decode 0x1100C864 = .instr (.sampleb 100 200) := by decide
theorem test_decode_rsweep : decode 0x20000000 = .instr .rsweep := by decide
theorem test_decode_rsweepg : decode 0x21000000 = .instr .rsweepg := by decide
theorem test_decode_rleader : decode 0x22000000 = .instr .rleader := by decide
theorem test_decode_rdist : decode 0x23000000 = .instr .rdist := by decide
theorem test_decode_rconfetti : decode 0x24000000 = .instr .rconfetti := by decide
theorem test_decode_rjuggle : decode 0x25000000 = .instr .rjuggle := by decide
theorem test_decode_rsinelon : decode 0x26000000 = .instr .rsinelon := by decide
theorem test_decode_rcandle : decode 0x27000000 = .instr .rcandle := by decide
theorem test_decode_fade : decode 0x30000014 = .instr (.fade 20) := by decide
theorem test_decode_glitter : decode 0x310000FF = .instr (.glitter 255) := by decide

/-- The legal extremes of 2.11. -/
theorem test_decode_extremes :
    decode 0x020000FF = .instr (.gqry 255) ∧ decode 0x100000FF = .instr (.sample 255) ∧
    decode 0x1100FFFF = .instr (.sampleb 255 255) ∧ decode 0x300000FF = .instr (.fade 255) ∧
    decode 0x310000FF = .instr (.glitter 255) := by decide

/-- The illegal words of 2.11 with an unknown opcode. -/
theorem test_unknown_opcodes :
    ([0x04000000, 0x0F000000, 0x12000000, 0x28000000, 0x32000000, 0xFF000000, 0xFFFFFFFF] : List Word).all
      (fun w => !legalWord w) = true := by decide

/-- The illegal words of 2.11 with a nonzero bit in a zero field. -/
theorem test_nonzero_fields :
    ([0x00000001, 0x20000001, 0x01000100, 0x02000180, 0x10010000, 0x11010000, 0x30000100] : List Word).all
      (fun w => !legalWord w) = true := by decide

theorem test_decode_table_word : decodeTableWord 32 0x1100C864 = some (.sampleb 100 200) := by decide

/-! ### Small states -/

/-- An instance with `N` pixels. -/
def params (n : Nat) (h : RawParams.wellFormed { RawParams.default with n := n } = true) : Params :=
  ⟨{ RawParams.default with n := n }, h⟩

def params2 : Params := params 2 (by decide)
def params4 : Params := params 4 (by decide)
def params8 : Params := params 8 (by decide)

/-- A colour written `RRGGBB`, as the vectors write it. -/
def rgb (v : Nat) : Colour := unpackColour (BitVec.ofNat 32 v)

/-- The grey ramp's palette. -/
def greyLut : List Colour := (List.range 16).map fun k => rgb (0x101010 * k)

/-- `rgb3`'s palette. -/
def rgb3Lut : List Colour :=
  [0xFF0000, 0xDF1F00, 0xBF3F00, 0x9F5F00, 0x7F7F00, 0x5F9F00, 0x3FBF00, 0x1FDF00,
   0x00FF00, 0x00DE20, 0x00BE40, 0x009E60, 0x007E80, 0x005EA0, 0x003EC0, 0x001EE0].map rgb

/-- `rgb3`'s control points, in a table of sixteen. -/
def rgb3Cp : List ControlPoint :=
  [0x00FF0000, 0x8000FF00, 0xFF0000FF].map unpackControlPoint ++ List.replicate 13 ⟨0, .black⟩

/-- A live block with a palette, `rgb3`'s points loaded, every pixel `c`, and a source that gives `draws` and no more. -/
def bench (p : Params) (lut : List Colour) (c : Nat) (draws : List Nat) : State :=
  { State.resetOf p 0 with
    lut := lut, lutv := 0xFFFF, cp := rgb3Cp, cpcnt := 3, pix := List.replicate p.n (rgb c)
    source := { answers := draws, silent := true, asked := [] } }

/-- The same block with nothing loaded. -/
def bare : State := { bench params4 greyLut 0x101010 [] with lutv := 0, cpcnt := 0 }

/-- A beat file. -/
def beats (b : List Nat) : List Half := b.map (BitVec.ofNat 16)

/-- The pixels a step leaves, as `RRGGBB` words. -/
def pixOf : Host.Outcome State Fault Refusal → List Nat
  | .next t => t.pix.map fun c => (packColour c).toNat
  | _ => []

/-- The palette a step leaves. -/
def lutOf : Host.Outcome State Fault Refusal → List Nat
  | .next t => t.lut.map fun c => (packColour c).toNat
  | _ => []

/-- `RESULT` after a step. -/
def resultOf : Host.Outcome State Fault Refusal → Option Nat
  | .next t => some (packColour t.result).toNat
  | _ => none

/-- `STATUS` and `FAULTCMD` after a step. -/
def statusOf : Host.Outcome State Fault Refusal → Option (Word × Word)
  | .next t => some (statusWord t, t.faultcmd)
  | _ => none

/-- What a host read of `GLH[a]` returns after a step. -/
def glhOf (a : Nat) : Host.Outcome State Fault Refusal → Option Word
  | .next t => readWord t (targetAddr (.glh a))
  | _ => none

/-- What a host read of `SPREV` returns after a step. -/
def sprevOf : Host.Outcome State Fault Refusal → Option Word
  | .next t => readWord t (targetAddr .sprev)
  | _ => none

/-- The answer of the host read a step made. -/
def answerOf : Host.Outcome State Fault Refusal → Option Word
  | .next t => t.answer
  | _ => none

/-- Whether a step gives a next state. -/
def isNext : Host.Outcome State Fault Refusal → Bool
  | .next _ => true
  | _ => false

/-! ### The primitives (2.1) -/

theorem test_lerp :
    lerp 255 0 1 16 = 239 ∧ lerp 20 10 128 255 = 14 ∧ lerp 0 1 254 255 = 0 ∧ lerp 255 254 1 2 = 254 := by decide
theorem test_scale : scale 200 245 = 192 ∧ scale 254 254 = 253 ∧ scale 1 254 = 0 ∧ scale 255 128 = 128 := by decide
theorem test_addSat : addSat 200 90 = 255 ∧ addSat 164 90 = 254 := by decide
theorem test_maxC : maxC ⟨184, 9, 82⟩ ⟨64, 64, 64⟩ = ⟨184, 64, 82⟩ := by decide

/-! ### Palette table commands (2.2 to 2.4) -/

theorem test_nop : exec .nop (bench params4 greyLut 0x101010 []) = .next (bench params4 greyLut 0x101010 []) := rfl
theorem test_nop_status :
    statusOf (step ((bench params4 greyLut 0 []).withFetchWord 32 0)) = some (0x00000004, 0) := by decide
theorem test_pbuild :
    lutOf (exec .pbuild (bench params4 greyLut 0 [])) =
      [0xFF0000, 0xDF1F00, 0xBF3F00, 0x9F5F00, 0x7F7F00, 0x5F9F00, 0x3FBF00, 0x1FDF00,
       0x00FF00, 0x00DE20, 0x00BE40, 0x009E60, 0x007E80, 0x005EA0, 0x003EC0, 0x001EE0] := by decide
theorem test_pbuild_count : statusOf (exec .pbuild bare) = some (0x00000022, 0x01000000) := by decide
theorem test_gqry_falling : resultOf (exec (.gqry 129) (bench params4 greyLut 0 [])) = some 0x00FC02 := by decide
theorem test_gqry_order :
    statusOf (exec (.gqry 64) { bare with
      cp := [0x80FF0000, 0x4000FF00].map unpackControlPoint ++ List.replicate 14 ⟨0, .black⟩, cpcnt := 2 }) =
      some (0x00010032, 0x02000040) := by decide
theorem test_pblend4 :
    lutOf (exec .pblend4 { bench params4 greyLut 0 [] with
      lutv := 0x1111
      lut := [0xFF0000, 0, 0, 0, 0xFFFFFF, 0, 0, 0, 0x0000FF, 0, 0, 0, 0, 0, 0, 0].map rgb }) =
      [0xFF0000, 0xFF8080, 0xFFE0E0, 0xFFFFFF, 0xFFFFFF, 0x7F7FFF, 0x1F1FFF, 0x0000FF,
       0x0000FF, 0x00007F, 0x00001F, 0x000000, 0x000000, 0x800000, 0xE00000, 0xFF0000] := by decide
theorem test_pblend4_anchor :
    statusOf (exec .pblend4 { bench params4 greyLut 0 [] with lutv := 0x0111 }) =
      some (0x01110042, 0x03000000) := by decide

/-! ### The sampler (2.5) -/

theorem test_sample_grey : resultOf (exec (.sample 250) (bench params4 greyLut 0 [])) = some 0x5A5A5A := by decide
theorem test_sample_wraps : resultOf (exec (.sample 255) (bench params4 rgb3Lut 0 [])) = some 0xEF010E := by decide
theorem test_sampleb : resultOf (exec (.sampleb 250 200) (bench params4 rgb3Lut 0 [])) = some 0x7C0841 := by decide
theorem test_sampleb_operand_order :
    resultOf (step ((bench params4 rgb3Lut 0 []).withFetchWord 32 0x1100FE00)) = some 0xFE0000 := by decide

/-! ### Stateless renders (2.6) -/

theorem test_rsweep :
    pixOf (exec .rsweep { bench params4 greyLut 0 [] with gindex := 250 }) =
      [0x5A5A5A, 0x010101, 0x080808, 0x0F0F0F] := by decide
theorem test_rsweep_no_palette : statusOf (exec .rsweep bare) = some (0x00000042, 0x20000000) := by decide
theorem test_rleader :
    pixOf (exec .rleader { bench params4 greyLut 0 [] with gindex := 10 }) =
      [0x323232, 0x0C0C0C, 0x0E0E0E, 0x101010] := by decide
theorem test_rdist :
    pixOf (exec .rdist { bench params4 greyLut 0 [] with gindex := 200 }) =
      [0xC8C8C8, 0x070707, 0x464646, 0x858585] := by decide
theorem test_rcandle :
    pixOf (exec .rcandle { bench (params 3 (by decide)) greyLut 0 [9, 0, 3] with
      gindex := 16, beat := beats [255, 0, 0, 0, 0, 0, 0, 0] }) = [0x0F0F0F, 0x131313, 0x151515] := by decide
theorem test_rcandle_range :
    statusOf (exec .rcandle { bench params4 greyLut 0 [] with beat := beats [250, 6, 0, 0, 0, 0, 0, 0] }) =
      some (0x01000066, 0x27000000) := by decide

/-! ### Glitter (2.7) -/

/-- G1: a sparkle is recorded and not lit. -/
theorem test_glitter_starts :
    glhOf 0 (exec (.glitter 255) { bench params4 greyLut 0x101010 [0, 2] with frame := 3 }) = some 0x80000002 := by decide
/-- G3: two slots that name one pixel. -/
theorem test_glitter_two_slots :
    pixOf (exec (.glitter 0) { bench params4 greyLut 0 [255] with
      frame := 3, glh := [some 1, some 1] ++ List.replicate 16 none }) = [0, 0xAFAFAF, 0, 0] := by decide
/-- G7. -/
theorem test_rsweepg :
    pixOf (exec .rsweepg { bench params8 greyLut 0 [10, 5] with
      frame := 400, glh := some 2 :: List.replicate 17 none }) =
      [0x000000, 0x070707, 0x676767, 0x151515, 0x1C1C1C, 0x232323, 0x2A2A2A, 0x313131] := by decide
theorem test_rsweepg_history :
    glhOf 1 (exec .rsweepg { bench params8 greyLut 0 [10, 5] with
      frame := 400, glh := some 2 :: List.replicate 17 none }) = some 0x80000002 := by decide

/-! ### Fade and confetti (2.8, S8) -/

theorem test_fade :
    pixOf (exec (.fade 10) { bench params2 greyLut 0 [] with pix := [rgb 0xC86405, rgb 0x010203] }) =
      [0xC06004, 0x000102] := by decide
theorem test_fade_all :
    pixOf (exec (.fade 255) { bench params2 greyLut 0xC86405 [] with frame := 1 }) = [0, 0] := by decide
theorem test_rconfetti_saturates :
    pixOf (exec .rconfetti { bench params2 rgb3Lut 0 [1, 1] with
      pix := [rgb 0, rgb 0xC8C8C8], gindex := 56, beat := beats [2, 0, 0, 0, 0, 0, 0, 0] }) =
      [0x000000, 0xFFFFC0] := by decide

/-- 20_memory.md R70, R74 by hand: two speckles due, one draw answered. The fade leaves 200*245 div 255 = 0xC0, the first
speckle adds Sample(16) = 0x10 at pixel 1, and both bounds have been presented. -/
theorem test_rconfetti_waits :
    (match exec .rconfetti { bench params2 greyLut 0 [1] with
        pix := [rgb 0, rgb 0xC8C8C8], gindex := 16, beat := beats [2, 0, 0, 0, 0, 0, 0, 0] } with
      | .next t => (t.pix, t.busy, t.source.answers, t.source.asked)
      | _ => ([], false, [], [])) = ([rgb 0, rgb 0xD0D0D0], true, [], [2, 2]) := by decide

/-! ### Juggle (2.9) -/

theorem test_rjuggle :
    pixOf (exec .rjuggle { bench params8 greyLut 0 [] with
      pix := (List.replicate 8 (rgb 0)).set 1 (rgb 0xC80A5A)
      gindex := 64, beat := beats [0, 0, 1, 1, 3, 7, 7, 2] }) =
      [0x404040, 0xB84052, 0x404040, 0x404040, 0, 0, 0, 0x404040] := by decide
theorem test_rjuggle_range :
    statusOf (exec .rjuggle { bench params8 greyLut 0 [] with beat := beats [0, 0, 1, 8, 3, 9, 7, 2] }) =
      some (0x00030056, 0x25000000) := by decide

/-! ### Sinelon (2.10) -/

theorem test_rsinelon_folds :
    pixOf (exec .rsinelon { bench (params 10 (by decide)) greyLut 0 [] with
      pix := (List.replicate 10 (rgb 0)).set 8 (rgb 0x323232)
      frame := 1, gindex := 51, beat := beats [13, 0, 0, 0, 0, 0, 0, 0], sprev := some 8 }) =
      [0x333333, 0x333333, 0x333333, 0x333333, 0, 0, 0, 0, 0x2E2E2E, 0x333333] := by decide
theorem test_rsinelon_no_start :
    statusOf (exec .rsinelon { bench params4 greyLut 0 [] with frame := 5 }) =
      some (0x00000076, 0x26000000) := by decide

/-! ### Faults and the host port (2.12, 2.13) -/

/-- `E_OPCODE` before `E_NOPAL`. -/
theorem test_opcode_first : statusOf (step (bare.withFetchWord 32 0x20000001)) = some (0x00000012, 0x20000001) := by decide
theorem test_read_unmapped :
    statusOf (step { bare with host := [.read 0x404] }) = some (0x04040082, 0) := by decide
theorem test_write_read_only :
    statusOf (step { bare with host := [.write 0x020 1] }) = some (0x00200082, 0) := by decide
theorem test_read_npix : answerOf (step { bare with host := [.read 0x006] }) = some 4 := by decide
/-- `WR BEAT[0], 0x12345` keeps 0x2345. -/
theorem test_write_truncates :
    (match step { bare with host := [.write 0x008 0x12345] } with
      | .next t => readWord t 0x008
      | _ => none) = some 0x2345 := by decide
/-- `WR LUT[0], 0xAB010203` sets `LUTV[0]`. -/
theorem test_write_lut :
    (match step { bare with host := [.write 0x010 0xAB010203] } with
      | .next t => (readWord t 0x010, readWord t 0x007)
      | _ => (none, none)) = (some 0x00010203, some 0x0001) := by decide
theorem test_frozen_ignores_write :
    (match step { bare with fault := true, fcode := 1, host := [.write 0x002 7] } with
      | .next t => readWord t 0x002
      | _ => none) = some 0 := by decide

/-! ### Assembler syntax (30_encoding.md R85, R86) -/

theorem test_parse_sampleb : parseLine "SAMPLEB 100, 200 ; 4E4E4E".toList = some (.command (.sampleb 100 200)) := by decide
theorem test_parse_element : parseLine "WR BEAT[0], 0x11".toList = some (.wr 0x008 17) := by decide

/-! ### Every row of the opcode table is the first thing a fresh block can run -/

theorem test_first_step_after_reset :
    ([0x00000000, 0x01000000, 0x020000FF, 0x03000000, 0x10000000, 0x11000000, 0x20000000, 0x21000000, 0x22000000,
      0x23000000, 0x24000000, 0x25000000, 0x26000000, 0x27000000, 0x30000000, 0x31000000] : List Nat).all
      (fun w => isNext (step (State.reset.withFetchWord 32 w))) = true := by decide

/-! ### Witnesses: for every statement with hypotheses, values that meet them -/

/-- A live block with a palette, a list of three points, a history, a previous beat and four answers of the source. -/
def ready : State :=
  { bench params4 greyLut 0x101010 [0, 3, 9, 0] with
    frame := 400, beat := beats [2, 3, 0, 3, 1, 1, 2, 0], glh := some 3 :: List.replicate 17 none, sprev := some 0 }

/-- The block on its first frame. -/
def firstFrame : State := { ready with frame := 0, sprev := none }

/-- The block with a recorded fault. -/
def frozen : State := faulted 4 0 0x20000000 { ready with lutv := 0 }

/-- The block with the anchors only. -/
def anchored : State := { ready with lutv := 0x1111 }

/-- A list of `n` control points, of which the first two are out of order. -/
def disordered : State :=
  { ready with cp := [0x80FF0000, 0x8000FF00].map unpackControlPoint ++ List.replicate 14 ⟨0, .black⟩, cpcnt := 2 }

theorem ready_inv : Inv ready where
  memory := by decide
  beats := by decide
  slots := by decide
  pixels := by decide
  clean := fun _ => by decide
  code := fun h => absurd h (by decide)
  illegal := fun h => absurd h (by decide)
  command := fun h => absurd h (by decide)
  access := fun h => absurd h (by decide)
  waiting := fun h => absurd h (by decide)

theorem firstFrame_inv : Inv firstFrame where
  memory := by decide
  beats := by decide
  slots := by decide
  pixels := by decide
  clean := fun _ => by decide
  code := fun h => absurd h (by decide)
  illegal := fun h => absurd h (by decide)
  command := fun h => absurd h (by decide)
  access := fun h => absurd h (by decide)
  waiting := fun h => absurd h (by decide)

theorem ready_gradientOk : GradientOk ready := checkCP_eq_none.mp (by decide)

theorem disordered_not_gradientOk : ¬ GradientOk disordered := fun h => by
  have := checkCP_eq_none.mpr h
  revert this; decide

/-- A palette that stands and one that lacks an entry: the two hypotheses of every palette statement. -/
theorem ready_palette : ready.fault = false ∧ ready.lutv = 0xFFFF := by decide
theorem anchored_palette : anchored.fault = false ∧ anchored.lutv ≠ 0xFFFF := by decide

theorem witness_DecodeOfEncodeIsTheCommand : (Instr.sampleb 255 0).wellFormed = true := by decide
theorem witness_EncodeOfDecodeIsTheWord : decode 0x310000FF = .instr (.glitter 255) := by decide
theorem witness_LegalWordsAndIllegalOnes :
    ({ ready with host := [.write 0x000 0x00000001] } : State).busy = false ∧ ready.fault = false ∧
    ∀ row ∈ opcodeTable, (0x00000001 : Word) &&& row.mask ≠ row.pattern := by decide
theorem witness_StepRunsTheDecodedCommand :
    ({ ready with host := [.write 0x000 0x310000FF] } : State).host = [.write 0x000 0x310000FF] ∧
    ready.busy = false ∧ decode 0x310000FF = .instr (.glitter 255) := by decide
theorem witness_IdleBlockHoldsItsState : ready.host = [] ∧ ready.busy = false := by decide
/-- A block with another list of answers. -/
def answered (s : State) (answers : List Nat) : State := { s with source := { s.source with answers := answers } }

theorem answered_inv {s : State} (h : Inv s) (answers : List Nat) : Inv (answered s answers) where
  memory := h.memory
  beats := h.beats
  slots := h.slots
  pixels := h.pixels
  clean := h.clean
  code := h.code
  illegal := h.illegal
  command := h.command
  access := h.access
  waiting := h.waiting

/-- Every command's checks pass on `ready`. -/
theorem ready_checksPass (i : Instr) : checksPass i ready := by
  cases i
  case pbuild => exact ready_gradientOk
  case gqry => exact ready_gradientOk
  all_goals exact checkOf_eq_none.mp (by rfl)

/-- Exactly enough answers and one too few for each command that draws, the second draw of a sparkle among them; a
frozen block and a failing check; a hung block with a read waiting. -/
theorem witness_CommandsFinishOrHangOnTheSource :
    (ready.fault = false ∧ (∀ i, checksPass i ready) ∧ ready.source.answers.length = 4 ∧
      (drawBounds .rcandle ready).length = 4 ∧ answersAll ready.source (drawBounds .rcandle ready).length = true) ∧
    (answersAll (answered ready [0, 0, 0]).source (drawBounds .rcandle (answered ready [0, 0, 0])).length = false ∧
      answersAll (answered ready [0]).source (drawBounds .rconfetti (answered ready [0])).length = false ∧
      answersAll (answered ready [1]).source (drawBounds (.glitter 1) (answered ready [1])).length = true ∧
      answersAll (answered ready [0]).source (drawBounds (.glitter 1) (answered ready [0])).length = false ∧
      answersAll (answered ready [19]).source (drawBounds .rsweepg (answered ready [19])).length = false ∧
      answersAll (answered ready [20]).source (drawBounds .rsweepg (answered ready [20])).length = true) ∧
    (frozen.fault = true ∧ ¬ checksPass .rsweep anchored) ∧
    (({ ready with busy := true, host := [.read 0x001] } : State).busy = true) :=
  ⟨⟨by decide, ready_checksPass, by decide, by decide, by decide⟩, by decide, ⟨by decide, anchored_palette.2⟩, rfl⟩
theorem witness_StepKeepsInvariant : Inv ready ∧ step ready = .next ready := ⟨ready_inv, rfl⟩
/-- The first and the last pixel's address, and one command of each kind. -/
theorem witness_ResetValues :
    ({ frozen with host := [.rst] } : State).host = [.rst] ∧ checksPalette .rsinelon = true ∧
    (0x400 : Addr).toNat < 0x400 + params4.n ∧ (0x403 : Addr).toNat < 0x400 + params4.n := by decide
theorem witness_ResetAloneClears :
    ({ frozen with host := [.rst] } : State).host = [.rst] ∧
    step { frozen with host := [.write 0x002 7] } = .next { frozen with host := [] } ∧ frozen.fault = true ∧
    ready.lutv.getLsbD 15 = true ∧ ready.sprev.isSome = true := ⟨by decide, rfl, by decide, by decide, by decide⟩
theorem witness_FrozenBlock :
    frozen.fault = true ∧ frozen.busy = false ∧
    ({ frozen with host := [.write 0x000 0] } : State).host = [.write 0x000 0] := by decide
/-- An access fault and a command's fault. -/
theorem witness_FaultsArePrecise :
    ready.fault = false ∧ statusOf (step { ready with host := [.read 0xFFF] }) = some (0x0FFF008E, 0) ∧
    statusOf (step { anchored with host := [.write 0x000 0x20000000] }) = some (0x1111004A, 0x20000000) ∧
    frozen.fault = true := by decide
theorem witness_CommandsRaiseOnlyTheirCodes :
    exec .rsweep anchored = .next (faulted 4 0x1111 0x20000000 anchored) ∧ anchored.fault = false := ⟨rfl, by decide⟩
/-- A count of one, a count one above `CPMAX`, the first pair out of order, and a list in order. -/
theorem witness_GradientListCheck :
    ({ ready with cpcnt := 1 } : State).cpcnt.toNat < 2 ∧ ready.params.cpmax < (17 : Byte).toNat ∧
    (cpAt disordered.cp 1).pos.toNat ≤ (cpAt disordered.cp 0).pos.toNat ∧ 1 < disordered.cpcnt.toNat ∧
    GradientOk ready := ⟨by decide, by decide, by decide, by decide, ready_gradientOk⟩
theorem witness_PaletteCheck :
    checksPalette .rcandle = true ∧ anchored.lutv ≠ 0xFFFF ∧
    ({ ready with lutv := 0xEFFF } : State).lutv.getLsbD 12 = false := by decide
/-- The first dot at `N` exactly, and the last one with all before it in range. -/
theorem witness_JuggleRangeCheck :
    (let s : State := { ready with beat := beats [0, 4, 0, 0, 0, 0, 0, 0] }
     s.lutv = 0xFFFF ∧ s.params.n ≤ beatAt s 1) ∧
    (let s : State := { ready with beat := beats [0, 3, 3, 3, 3, 3, 3, 4] }
     s.params.n ≤ beatAt s 7 ∧ ∀ e, e < 7 → 1 ≤ e → beatAt s e < s.params.n) ∧
    statusOf (exec .rjuggle { ready with beat := beats [0, 4, 0, 0, 0, 0, 0, 0] }) = some (0x0001005E, 0x25000000) := by
  decide
theorem witness_CandleRangeCheck :
    (let s : State := { ready with beat := beats [255, 1, 0, 0, 0, 0, 0, 0] }
     s.lutv = 0xFFFF ∧ 255 < beatAt s 0 + beatAt s 1) ∧ anchored.lutv ≠ 0xFFFF := by decide
theorem witness_SinelonInitCheck :
    (let s : State := { ready with sprev := none }
     s.fault = false ∧ s.lutv = 0xFFFF ∧ s.frame ≠ 0 ∧ s.sprev = none) ∧ anchored.lutv ≠ 0xFFFF := by decide
theorem witness_LerpLaws : (255 : Nat) ≤ 255 ∧ 1 ≤ 255 ∧ (0 : Nat) ≤ 1 ∧ 1 ≤ 1 := by decide
theorem witness_AddSatLaws : ([200, 90] : List Byte).Perm [90, 200] := by decide
theorem witness_DrawsAreInRange : (∀ r ∈ [0, 9], r < 10) ∧ [0, 9][1]? = some 9 ∧ 1 ≤ 1 := by decide
/-- At the first point, at the last point, at an anchor between them, and one past an anchor. -/
theorem witness_GradientDecode :
    GradientOk ready ∧ 0 ≤ (cpAt ready.cp 0).pos.toNat ∧ (cpAt ready.cp 2).pos.toNat ≤ 255 ∧
    128 = (cpAt ready.cp 1).pos.toNat ∧ 129 < (cpAt ready.cp 2).pos.toNat :=
  ⟨ready_gradientOk, by decide, by decide, by decide, by decide⟩
theorem witness_PbuildFillsThePalette :
    (ready.fault = false ∧ GradientOk ready) ∧ (disordered.fault = false ∧ ¬ GradientOk disordered) :=
  ⟨⟨by decide, ready_gradientOk⟩, by decide, disordered_not_gradientOk⟩
theorem witness_GqryAnswersTheGradient :
    (ready.fault = false ∧ GradientOk ready) ∧ (disordered.fault = false ∧ ¬ GradientOk disordered) :=
  witness_PbuildFillsThePalette
theorem witness_GradientDecodeIsIdempotent :
    ready.fault = false ∧ GradientOk ready ∧ ∃ t, exec .pbuild ready = .next t := ⟨by decide, ready_gradientOk, _, rfl⟩
theorem witness_Pblend4BlendsTheAnchors :
    (anchored.fault = false ∧ anchored.lut.length = 16 ∧ anchored.lutv.getLsbD 0 = true ∧
      anchored.lutv.getLsbD 4 = true ∧ anchored.lutv.getLsbD 8 = true ∧ anchored.lutv.getLsbD 12 = true) ∧
    anchored.params.blend4Tail = .wrap ∧
    ({ ready with lutv := 0x0111 } : State).lutv.getLsbD 12 = false := by decide
/-- An instance with `BLEND4_TAIL = HOLD`. -/
theorem witness_Pblend4BlendsTheAnchors_hold :
    RawParams.wellFormed { RawParams.default with blend4Tail := .hold } = true := by decide
theorem witness_BlendedPaletteAnchorsSampleExactly :
    ∃ t, exec .pblend4 anchored = .next t ∧ anchored.fault = false ∧ t.fault = false := ⟨_, rfl, by decide, by decide⟩
theorem witness_SampleInterpolates : (240 : Byte).toNat % 16 = 0 := by decide
theorem witness_SampleAnswersTheSample :
    (ready.fault = false ∧ ready.lutv = 0xFFFF) ∧ (anchored.fault = false ∧ anchored.lutv ≠ 0xFFFF) :=
  ⟨ready_palette, anchored_palette⟩
theorem witness_SamplebScalesTheSample :
    (ready.fault = false ∧ ready.lutv = 0xFFFF) ∧ (anchored.fault = false ∧ anchored.lutv ≠ 0xFFFF) :=
  ⟨ready_palette, anchored_palette⟩
theorem witness_RsweepPaintsTheSweep :
    (ready.fault = false ∧ ready.lutv = 0xFFFF ∧ 3 < ready.params.n) ∧
    (anchored.fault = false ∧ anchored.lutv ≠ 0xFFFF) := by decide
theorem witness_RleaderPaintsTheLeader :
    (ready.fault = false ∧ ready.lutv = 0xFFFF ∧ 1 < ready.params.n) ∧
    (anchored.fault = false ∧ anchored.lutv ≠ 0xFFFF) := by decide
/-- Four pixels, and an instance with more than 255. -/
theorem witness_RdistSpreadsThePalette :
    (ready.fault = false ∧ ready.lutv = 0xFFFF ∧ 3 < ready.params.n) ∧ 255 < (params 256 (by decide)).n ∧
    (anchored.fault = false ∧ anchored.lutv ≠ 0xFFFF) := by decide
/-- The beats at 255 exactly, with exactly `N` answers; and one above. -/
theorem witness_RcandleFlickers :
    (let s : State := { ready with beat := beats [255, 0, 0, 0, 0, 0, 0, 0] }
     s.fault = false ∧ s.lutv = 0xFFFF ∧ beatAt s 0 + beatAt s 1 ≤ 255 ∧ answersAll s.source s.params.n = true) ∧
    (let s : State := { ready with beat := beats [255, 1, 0, 0, 0, 0, 0, 0] }
     s.lutv = 0xFFFF ∧ 255 < beatAt s 0 + beatAt s 1) ∧ anchored.lutv ≠ 0xFFFF := by decide
theorem witness_FadeShrinksEveryChannel :
    ready.fault = false ∧ ready.pix[3]? = some (rgb 0x101010) ∧ 1 ≤ (1 : Byte).toNat ∧
    chan .red (rgb 0x101010) ≠ 0 := by decide
/-- Later than frame 0 with two answers; on frame 0; and with one answer when no sparkle starts. -/
theorem witness_GlitterStepOfACommand :
    (Inv ready ∧ ready.fault = false ∧ ready.frame ≠ 0 ∧
      answersAll ready.source (if draw ready.source 0 256 < (1 : Byte).toNat then 2 else 1) = true) ∧
    (Inv firstFrame ∧ firstFrame.frame = 0) ∧
    answersAll { ready.source with answers := [255] } 1 = true :=
  ⟨⟨ready_inv, by decide, by decide, by decide⟩, ⟨firstFrame_inv, by decide⟩, by decide⟩
theorem witness_RsweepgIsSweepThenGlitter :
    (ready.fault = false ∧ ready.lutv = 0xFFFF ∧
      answersAll ready.source (if draw ready.source 0 256 < min (ready.frame.toNat / 20) 100 then 2 else 1) = true) ∧
    (anchored.fault = false ∧ anchored.lutv ≠ 0xFFFF) := by decide
theorem witness_RconfettiAddsSpeckles :
    Inv ready ∧ ready.fault = false ∧ ready.lutv = 0xFFFF ∧ answersAll ready.source (beatAt ready 0) = true :=
  ⟨ready_inv, by decide, by decide, by decide⟩
/-- Every dot in range, the largest at `N - 1`. -/
theorem witness_RjuggleTakesTheMaximum :
    Inv ready ∧ ready.fault = false ∧ ready.lutv = 0xFFFF ∧ (∀ d, d < 8 → 1 ≤ d → beatAt ready d < ready.params.n) ∧
    beatAt ready 1 = ready.params.n - 1 := ⟨ready_inv, by decide, by decide, by decide, by decide⟩
/-- A trail forwards, the first frame, and a block that was never started. -/
theorem witness_RsinelonFillsTheTrail :
    (Inv ready ∧ ready.fault = false ∧ ready.lutv = 0xFFFF ∧ ready.frame ≠ 0 ∧ ready.sprev = some 0 ∧
      beatAt ready 0 = 2) ∧
    (Inv firstFrame ∧ firstFrame.frame = 0 ∧ firstFrame.lutv = 0xFFFF) ∧
    (let s : State := { ready with sprev := none }
     s.fault = false ∧ s.lutv = 0xFFFF ∧ s.frame ≠ 0 ∧ s.sprev = none) :=
  ⟨⟨ready_inv, by decide⟩, ⟨firstFrame_inv, by decide⟩, by decide⟩
/-- Steps with different chances in different frames; `ready` and a history of nothing differ. -/
theorem witness_GlitterForgetsAfterEighteenSteps :
    (let steps : List (Nat × Word) := (1, 1) :: (100, 0xFFFFFFFF) :: List.replicate 16 (20, 400)
     steps.length = 18 ∧ (∀ x ∈ steps, x.2 ≠ 0) ∧ (steps.tail.length = 17 ∧ ∀ x ∈ steps.tail, x.2 ≠ 0)) ∧
    ready.glh.length = 18 ∧ (List.replicate 18 (none : Option Half)).length = 18 ∧
    (ready.fault = false ∧ ready.lutv = 0xFFFF ∧ answersAll ready.source (drawBounds (.glitter 255) ready).length = true ∧
      answersAll ready.source (drawBounds .rsweepg ready).length = true) := by decide
theorem witness_FullFrameCommandsIgnoreTheOldBuffer :
    ∃ t, exec .rsweep ready = .next t ∧ ready.fault = false ∧ t.fault = false ∧ t.busy = false :=
  ⟨_, rfl, by decide, by decide, by decide⟩
/-- The first and last address of each unmapped range. -/
theorem witness_AccessesTheMapDoesNotPermit :
    unmapped params4 0x034 ∧ unmapped params4 0x03F ∧ unmapped params4 0x050 ∧ unmapped params4 0x3FF ∧
    unmapped params4 0x404 ∧ unmapped params4 0xFFF := by unfold unmapped; decide
/-- The ends of the read-only ranges, on a live and on a frozen block. -/
theorem witness_AccessesTheMapDoesNotPermit_readOnly :
    (readOnly 0x001 ∧ readOnly 0x020 ∧ readOnly 0x031 ∧ readOnly 0x033) ∧
    (ready.busy = false ∧ ready.fault = false ∧ frozen.busy = false ∧ frozen.fault = true) :=
  ⟨by unfold readOnly; decide, by decide⟩
theorem witness_PermittedReadsChangeNothing :
    ({ frozen with host := [.read 0x403] } : State).busy = false ∧ (0x403 : Addr) ≠ 0x000 ∧
    ¬ unmapped frozen.params 0x403 := by unfold unmapped; decide
/-- Each file's last element. -/
theorem witness_ReadLayouts :
    Inv ready ∧ ready.lutv.getLsbD 15 = true ∧ anchored.lutv.getLsbD 15 = false ∧ 15 < ready.params.cpmax ∧
    3 < ready.params.n ∧ (ready.beat[0]? = some 2 ∧ ready.beat[7]? = some 0) :=
  ⟨ready_inv, by decide, by decide, by decide, by decide, by decide⟩
theorem ready_write_inv (events : List PortEvent) : Inv { ready with host := events } where
  memory := ready_inv.memory
  beats := ready_inv.beats
  slots := ready_inv.slots
  pixels := ready_inv.pixels
  clean := ready_inv.clean
  code := ready_inv.code
  illegal := ready_inv.illegal
  command := ready_inv.command
  access := ready_inv.access
  waiting := ready_inv.waiting
/-- The last palette entry, the last beat and the last control point. -/
theorem witness_WriteThenReadReturnsTheKeptBits :
    Inv { ready with host := [.write 0x01F 0xAB010203, .read 0x01F] } ∧
    (¬ readOnly 0x01F ∧ ¬ unmapped params4 0x01F) ∧ (¬ readOnly 0x00F ∧ ¬ unmapped params4 0x00F) ∧
    (¬ readOnly 0x04F ∧ ¬ unmapped params4 0x04F) := by
  refine ⟨ready_write_inv _, ?_⟩
  unfold unmapped readOnly; decide
theorem witness_AddressMapIsOneToOne :
    addressMap params4 0x403 = some (.pix 3) ∧ addressMap params4 0x404 = none ∧
    addressMap params4 0x031 = some (.glh 17) ∧ addressMap params4 0x032 = some .sprev := by decide
theorem witness_CommandsWriteOnlyTheirColumn :
    exec .rsweep anchored = .next (faulted 4 0x1111 0x20000000 anchored) ∧
    addressMap anchored.params 0x010 = some (.lut 0) ∧ writtenBy .rsweep (.lut 0) = false := ⟨rfl, by decide, by decide⟩
theorem witness_CommandsLeaveHostRegisters : ∃ t, exec .rcandle ready = .next t := ⟨_, rfl⟩
theorem witness_ResultChangesOnlyByItsCommands :
    resultOf (step { ready with host := [.write 0x000 0x100000FA] }) = some 0x5A5A5A ∧
    ready.result = .black := by decide
theorem witness_PseudoInstructionsExpand : (63 : Nat) < 64 ∧ 15 < 16 ∧ 1023 < 1024 := by decide
theorem witness_RampBuildsATwoColourPalette :
    Inv { ready with host := Stmt.expand 0 0 (.ramp 0 0 0 255 255 255) } ∧ ready.busy = false ∧ ready.fault = false :=
  ⟨ready_write_inv _, by decide, by decide⟩

/-- One answer too few for each command that draws: pixel 2 answered and pixel 3 not, one speckle of two, the second
draw of a sparkle, on the first frame and later. -/
theorem witness_WaitingCommandsHaveDoneWhatPrecedesTheDraw :
    (Inv (answered ready [0, 0, 0]) ∧ (answered ready [0, 0, 0]).lutv = 0xFFFF ∧
      beatAt (answered ready [0, 0, 0]) 0 + beatAt (answered ready [0, 0, 0]) 1 ≤ 255 ∧
      answersAll (answered ready [0, 0, 0]).source ready.params.n = false ∧
      2 < (answered ready [0, 0, 0]).source.answers.length ∧
      (answered ready [0, 0, 0]).source.answers.length ≤ 3) ∧
    (Inv (answered ready [0]) ∧ (answered ready [0]).fault = false ∧ (answered ready [0]).lutv = 0xFFFF ∧
      (answered ready [0]).frame ≠ 0 ∧
      answersAll (answered ready [0]).source (beatAt (answered ready [0]) 0) = false ∧
      answersAll (answered ready [0]).source (drawBounds (.glitter 1) (answered ready [0])).length = false ∧
      answersAll (answered ready [0]).source (drawBounds .rsweepg (answered ready [0])).length = false) ∧
    (Inv (answered firstFrame []) ∧ (answered firstFrame []).fault = false ∧ (answered firstFrame []).frame = 0 ∧
      answersAll (answered firstFrame []).source (drawBounds (.glitter 1) (answered firstFrame [])).length = false) :=
  ⟨⟨answered_inv ready_inv _, by decide⟩, ⟨answered_inv ready_inv _, by decide⟩, answered_inv firstFrame_inv _, by decide, by decide,
    by simp only [drawBounds]; split <;> rfl⟩

end Sys2Proof.Tests
end

section
/-! The primitives of 00_scope.md, section 7: their laws over all bytes, per channel (R7 to R10). -/

namespace Sys2Proof.Machine

open Sys2Proof.Safety

/-! ### The weighted mean (R7) -/

section Mean
variable {a b w D : Nat}

theorem min_mul_le_weightedSum (hw : w ≤ D) : min a b * D ≤ a * (D - w) + b * w := by
  calc min a b * D = min a b * (D - w) + min a b * w := by rw [← Nat.mul_add, Nat.sub_add_cancel hw]
    _ ≤ a * (D - w) + b * w :=
      Nat.add_le_add (Nat.mul_le_mul_right _ (Nat.min_le_left a b)) (Nat.mul_le_mul_right _ (Nat.min_le_right a b))

theorem weightedSum_le_max_mul (hw : w ≤ D) : a * (D - w) + b * w ≤ max a b * D := by
  calc a * (D - w) + b * w ≤ max a b * (D - w) + max a b * w :=
        Nat.add_le_add (Nat.mul_le_mul_right _ (Nat.le_max_left a b)) (Nat.mul_le_mul_right _ (Nat.le_max_right a b))
    _ = max a b * D := by rw [← Nat.mul_add, Nat.sub_add_cancel hw]

end Mean

section Lerp
variable {w D : Nat}

/-- "The largest intermediate is `255*255 = 65025`" (R7). -/
theorem weightedSum_le_65025 (a b : Byte) (hw : w ≤ D) (hD : D ≤ 255) :
    a.toNat * (D - w) + b.toNat * w ≤ 65025 := by
  have hmax : max a.toNat b.toNat ≤ 255 := by omega
  calc a.toNat * (D - w) + b.toNat * w ≤ max a.toNat b.toNat * D := weightedSum_le_max_mul hw
    _ ≤ 255 * 255 := Nat.mul_le_mul hmax hD

/-- The document's form: the signed difference is scaled and rounded toward minus infinity (R7, D9). -/
theorem lerp_toNat_eq_floor (a b : Byte) (hw : w ≤ D) (hD : 1 ≤ D) :
    ((lerp a b w D).toNat : Int) = a.toNat + ((b.toNat : Int) - a.toNat) * w / D := by
  have hsum : (a.toNat : Int) * ((D : Int) - w) + b.toNat * w = ((b.toNat : Int) - a.toNat) * w + a.toNat * D := by
    ring
  rw [lerp_toNat a b hw hD]
  push_cast [Nat.cast_sub hw]
  rw [hsum, Int.add_mul_ediv_right _ _ (by omega), add_comm]

theorem min_le_lerp (a b : Byte) (hw : w ≤ D) (hD : 1 ≤ D) : min a.toNat b.toNat ≤ (lerp a b w D).toNat := by
  rw [lerp_toNat a b hw hD, Nat.le_div_iff_mul_le hD]
  exact min_mul_le_weightedSum hw

theorem lerp_le_max (a b : Byte) (hw : w ≤ D) (hD : 1 ≤ D) : (lerp a b w D).toNat ≤ max a.toNat b.toNat := by
  rw [lerp_toNat a b hw hD]
  exact Nat.div_le_of_le_mul ((weightedSum_le_max_mul hw).trans_eq (Nat.mul_comm _ _))

end Lerp

/-- Settles O20: each clause is a law of the weighted sum `a*(D-w) + b*w`, which lies between `D` times the smaller and
`D` times the larger byte. -/
theorem lerpLaws : Obligations.LerpLaws := by
  refine ⟨fun a b w D hw hD hD' => ?_, rfl⟩
  exact ⟨lerp_toNat a b hw hD, lerp_toNat_eq_floor a b hw hD, lerp_zero a b hD, lerp_full a b hD,
    min_le_lerp a b hw hD, lerp_le_max a b hw hD, weightedSum_le_65025 a b hw hD',
    fun ch A B => chan_lerpC ch A B hw hD⟩

/-! ### Scaling (R8) -/

theorem scale_full (c : Byte) : scale c 255 = c := by
  apply BitVec.eq_of_toNat_eq
  rw [scale_toNat c (Nat.le_refl _), Nat.mul_div_cancel _ (by omega)]

theorem scale_zero (c : Byte) : scale c 0 = 0 := by
  simp [scale]

theorem zero_scale (s : Nat) : scale 0 s = 0 := by
  simp [scale]

theorem scale_le {s : Nat} (c : Byte) (hs : s ≤ 255) : (scale c s).toNat ≤ c.toNat := by
  rw [scale_toNat c hs]
  exact scale_quotient_le hs

/-- Settles O21: a factor that is a byte is at most 255, so no quotient exceeds the byte scaled. -/
theorem scaleLaws : Obligations.ScaleLaws := by
  refine ⟨fun c s => ?_, rfl⟩
  have hs : s.toNat ≤ 255 := by omega
  exact ⟨scale_toNat c hs, scale_full c, scale_zero c, zero_scale s.toNat, scale_le c hs,
    fun ch C => chan_scaleC ch C hs⟩

/-! ### Saturated addition (R9) -/

/-- "adding several values to one channel gives `min(255, a + b1 + b2 + ...)`" (R9). -/
theorem foldl_addSat_toNat (a : Byte) (bs : List Byte) :
    (bs.foldl addSat a).toNat = min 255 (a.toNat + (bs.map BitVec.toNat).sum) := by
  induction bs generalizing a with
  | nil => simp only [List.foldl_nil, List.map_nil, List.sum_nil]; omega
  | cons b bs ih => rw [List.foldl_cons, ih, addSat_toNat, List.map_cons, List.sum_cons]; omega

/-- "in whatever order they are added" (R9): the sum does not depend on the order. -/
theorem foldl_addSat_perm (a : Byte) {bs cs : List Byte} (h : bs.Perm cs) : bs.foldl addSat a = cs.foldl addSat a := by
  apply BitVec.eq_of_toNat_eq
  rw [foldl_addSat_toNat, foldl_addSat_toNat, (h.map BitVec.toNat).sum_eq]

/-- Settles O22, by the closed form of a series of adds. -/
theorem addSatLaws : Obligations.AddSatLaws :=
  ⟨addSat_toNat, chan_addSatC, foldl_addSat_toNat, fun a _ _ h => foldl_addSat_perm a h, rfl⟩

/-! ### The larger channel (R10) -/

theorem maxC_comm (A B : Colour) : maxC A B = maxC B A :=
  colour_ext_chan fun ch => by rw [chan_maxC, chan_maxC, Nat.max_comm]

theorem maxC_assoc (A B C : Colour) : maxC (maxC A B) C = maxC A (maxC B C) :=
  colour_ext_chan fun ch => by simp only [chan_maxC, Nat.max_assoc]

theorem maxC_self (A : Colour) : maxC A A = A :=
  colour_ext_chan fun ch => by rw [chan_maxC, Nat.max_self]

/-- Settles O23: every law of `MaxC` is the law of `max` on each channel. -/
theorem maxLaws : Obligations.MaxLaws :=
  ⟨chan_maxC, maxC_comm, maxC_assoc, maxC_self, rfl⟩

end Sys2Proof.Machine
end

section
/-! The packing of colours and control points (00_scope.md R6) as numbers in base 256, and its inverse. -/

namespace Sys2Proof.Machine

/-- Concatenation as a number: the more significant part stands above the width of the other. -/
theorem append_toNat_eq_add {m n : Nat} (x : BitVec m) (y : BitVec n) :
    (x ++ y).toNat = x.toNat * 2 ^ n + y.toNat := by
  rw [BitVec.toNat_append, ← Nat.shiftLeft_add_eq_or_of_lt y.isLt, Nat.shiftLeft_eq]

/-- `{pos, r, g, b}` (R6). -/
theorem packControlPoint_toNat (p : ControlPoint) :
    (packControlPoint p).toNat =
      p.pos.toNat * 2 ^ 24 + p.rgb.r.toNat * 2 ^ 16 + p.rgb.g.toNat * 2 ^ 8 + p.rgb.b.toNat := by
  simp only [packControlPoint, append_toNat_eq_add]
  omega

/-- `{0x00, r, g, b}` (R6). -/
theorem packColour_toNat (c : Colour) :
    (packColour c).toNat = c.r.toNat * 2 ^ 16 + c.g.toNat * 2 ^ 8 + c.b.toNat := by
  rw [packColour_eq_packControlPoint, packControlPoint_toNat]
  simp

/-- A byte of a word as a digit of its number. -/
theorem extractByte_toNat (v : Word) (k : Nat) : (v.extractLsb' k 8).toNat = v.toNat / 2 ^ k % 256 := by
  rw [BitVec.extractLsb'_toNat, Nat.shiftRight_eq_div_pow]

theorem extractByte_eq_of_digit {v : Word} {k : Nat} {d : Byte} (h : v.toNat / 2 ^ k % 256 = d.toNat) :
    v.extractLsb' k 8 = d :=
  BitVec.eq_of_toNat_eq ((extractByte_toNat v k).trans h)

theorem unpackControlPoint_packControlPoint (p : ControlPoint) : unpackControlPoint (packControlPoint p) = p := by
  have hv := packControlPoint_toNat p
  have hpos : (packControlPoint p).extractLsb' 24 8 = p.pos := extractByte_eq_of_digit (by omega)
  have hr : (packControlPoint p).extractLsb' 16 8 = p.rgb.r := extractByte_eq_of_digit (by omega)
  have hg : (packControlPoint p).extractLsb' 8 8 = p.rgb.g := extractByte_eq_of_digit (by omega)
  have hb : (packControlPoint p).extractLsb' 0 8 = p.rgb.b := extractByte_eq_of_digit (by omega)
  rw [unpackControlPoint, unpackColour, hpos, hr, hg, hb]

theorem unpackColour_packColour (c : Colour) : unpackColour (packColour c) = c :=
  congrArg ControlPoint.rgb (unpackControlPoint_packControlPoint ⟨0, c⟩)

theorem packControlPoint_unpackControlPoint (v : Word) : packControlPoint (unpackControlPoint v) = v := by
  apply BitVec.eq_of_toNat_eq
  rw [packControlPoint_toNat]
  simp only [unpackControlPoint, unpackColour, extractByte_toNat]
  omega

/-- A colour file keeps bits 23:0 of what is written to it (10_state.md R26, R30). -/
theorem packColour_unpackColour (v : Word) : packColour (unpackColour v) = v &&& 0x00FFFFFF := by
  apply BitVec.eq_of_toNat_eq
  have hmask : (v &&& 0x00FFFFFF).toNat = v.toNat % 2 ^ 24 := Nat.and_two_pow_sub_one_eq_mod v.toNat 24
  rw [packColour_toNat, hmask]
  simp only [unpackColour, extractByte_toNat]
  omega

/-- Settles O24: a packed value is the number its bytes are in base 256, and unpacking reads the digits off. -/
theorem packingLayout : Obligations.PackingLayout := fun c p v =>
  ⟨packColour_toNat c, packControlPoint_toNat p, unpackColour_packColour c, unpackControlPoint_packControlPoint p,
    packControlPoint_unpackControlPoint v, packColour_unpackColour v⟩

end Sys2Proof.Machine
end

section
/-! The random source as the block meets it (00_scope.md R11, 20_memory.md R74). -/

namespace Sys2Proof.Machine

/-- After some exchanges the next draws are those that stood behind them. -/
theorem draw_afterDraws (src : Source) (bounds : List Nat) (k n : Nat) :
    draw (afterDraws src bounds) k n = draw src (bounds.length + k) n := by
  rw [draw, draw, sourceWord_afterDraws]

/-- Settles O25: a source that lists the answers gives them back, as each is below its bound. -/
theorem drawsAreInRange : Obligations.DrawsAreInRange := by
  refine ⟨fun src k n hn => draw_lt src k hn, fun src n rs hrs k r hr => ?_, draw_afterDraws⟩
  exact draw_of_answer hr (hrs r (List.mem_of_getElem? hr))

end Sys2Proof.Machine
end

section
/-! Encoded words decode to their commands (30_encoding.md R80 to R83), and a step on one runs its command. -/

namespace Sys2Proof.Machine

open Sys2Proof.Safety

/-! ### The decoder on encoded words -/

theorem decode_encode (i : Instr) : decode (encode i) = .instr i := by
  cases i <;> simp [encode, decode, opcode, formatZ, formatA, formatB]

theorem legalWord_encode (i : Instr) : legalWord (encode i) = true := by
  rw [legalWord, decode_encode]

theorem legalWord_of_reject {w : Word} {why : DecodeReject} (h : decode w = .reject why) : legalWord w = false := by
  rw [legalWord, h]

@[simp] theorem tableWord_toNat (w : Word) : tableWord 32 w.toNat = w := by
  apply BitVec.eq_of_toNat_eq
  rw [tableWord, BitVec.toNat_ofNat]
  omega

/-! ### A write to CMD -/

/-- A frozen block executes nothing, so no case of `FAULT` is needed to say that a legal word is executed. -/
theorem step_command {s : State} {w : Word} {i : Instr} {rest : List PortEvent} (hh : s.host = .write cmdAddr w :: rest)
    (hb : s.busy = false) (hd : decode w = .instr i) : step s = exec i (takeRequest rest s) := by
  unfold step
  rw [nextAction_command hb hh, commandAction, takeRequest_fault, hd]
  cases hf : s.fault
  · rfl
  · exact (exec_of_fault (s := takeRequest rest s) hf).symm

/-- Settles O5: the word offered by `withFetchWord` is the encoded one, which decodes to its command. -/
theorem stepRunsTheDecodedCommand : Obligations.StepRunsTheDecodedCommand := by
  refine ⟨fun s w i rest hh hb hd => step_command hh hb hd, fun s i hb => ?_⟩
  have hh : (s.withFetchWord 32 (encode i).toNat).host = .write cmdAddr (encode i) :: s.host := by
    rw [withFetchWord_host, tableWord_toNat]
  exact step_command hh hb (decode_encode i)

end Sys2Proof.Machine
end

section
/-! The address map inverted, and what stands at each address of the map (10_state.md R20 to R36). -/

namespace Sys2Proof.Machine

open Sys2Proof.Safety

/-! ### The address map -/

/-- The place of a target names that target. -/
theorem addressMap_of_isAt {p : Params} {a : Addr} {t : Target} (h : isAt p a.toNat t) : addressMap p a = some t := by
  cases t
  case beat d => obtain ⟨ha, hd⟩ := h; rw [addressMap_beat (by omega) (by omega), ha, Nat.add_sub_cancel_left]
  case lut k => obtain ⟨ha, hk⟩ := h; rw [addressMap_lut (by omega) (by omega), ha, Nat.add_sub_cancel_left]
  case glh g => obtain ⟨ha, hg⟩ := h; rw [addressMap_glh (by omega) (by omega), ha, Nat.add_sub_cancel_left]
  case cp j => obtain ⟨ha, hj⟩ := h; rw [addressMap_cp (by omega) (by omega), ha, Nat.add_sub_cancel_left]
  case pix i => obtain ⟨ha, hi⟩ := h; rw [addressMap_pix (by omega) (by omega), ha, Nat.add_sub_cancel_left]
  all_goals
    rw [isAt] at h
    simp [addressMap, h]

/-- Settles O53: an address is the address of what it names, so no two addresses name one target. -/
theorem addressMapIsOneToOne : Obligations.AddressMapIsOneToOne := fun _ _ _ _ =>
  ⟨targetAddr_of_addressMap, fun ha hb => (targetAddr_of_addressMap ha).symm.trans (targetAddr_of_addressMap hb),
    addressMap_eq_none⟩

/-! ### The word at an address -/

theorem readWord_of_addressMap {s : State} {a : Addr} {t : Target} (h : addressMap s.params a = some t) :
    readWord s a = readTarget s t := by
  rw [readWord, h]

/-- An element within a list, read with a default, is the element. -/
theorem map_getElem?_eq_some_getD {α β : Type} (f : α → β) {l : List α} {k : Nat} (x : α) (hk : k < l.length) :
    (l[k]?).map f = some (f (l.getD k x)) := by
  simp [List.getD_eq_getElem?_getD, hk]

/-- An element address holds the word its target reads as. -/
theorem readWord_element {s : State} {t : Target} {n : Nat} (hn : n < 4096) (h : isAt s.params n t) :
    readWord s (BitVec.ofNat 12 n) = readTarget s t := by
  have hat : (BitVec.ofNat 12 n).toNat = n := by rw [BitVec.toNat_ofNat]; omega
  exact readWord_of_addressMap (addressMap_of_isAt (hat.symm ▸ h))

/-- The layout of a valid `GLH` slot or `SPREV`: bit 31 over the 16-bit value (10_state.md R31, R32). -/
theorem packValid_some_toNat (x : Half) : (packValid (some x)).toNat = 2 ^ 31 + x.toNat := by
  simp only [packValid, append_toNat_eq_add]
  rfl

/-- A palette entry nothing has written reads as some 24-bit value (10_state.md R27). -/
theorem readTarget_unwritten_lut {s : State} {k : Nat} (hk : s.lutv.getLsbD k = false) :
    ∃ w, readTarget s (.lut k) = some w ∧ w.toNat < 2 ^ 24 := by
  refine ⟨(Config.unwrittenLut s.fresh).setWidth 32, by simp [readTarget, hk], ?_⟩
  rw [BitVec.toNat_setWidth_of_le (by omega)]
  exact BitVec.isLt _

/-- Settles O50: each address holds its target's word, and under the invariant no element is read beyond its file. -/
theorem readLayouts : Obligations.ReadLayouts := by
  intro s hinv
  obtain ⟨hlut, hcp, hpix⟩ := (memory_wf_iff s).mp hinv.memory
  have hbeat := hinv.beats
  have hglh := hinv.slots
  have hcpmax := s.params.cpmax_le
  have hn := s.params.n_le
  refine ⟨rfl, rfl, rfl, rfl, rfl, rfl, rfl, rfl, rfl, rfl, fun d hd => ?beat, fun k hk hv => ?lut,
    fun k hk hv => ?unwritten, fun a ha => ?glh, fun j hj => ?cp, fun i hi => ?pix, rfl, packValid_some_toNat,
    fun d b _ hb => ?number⟩
  case beat =>
    rw [readWord_element (t := .beat d) (by omega) ⟨rfl, hd⟩, map_getElem?_eq_some_getD _ 0 (by omega)]; rfl
  case lut =>
    rw [readWord_element (t := .lut k) (by omega) ⟨rfl, hk⟩, map_getElem?_eq_some_getD _ .black (by omega)]
    exact if_pos hv
  case unwritten =>
    rw [readWord_element (t := .lut k) (by omega) ⟨rfl, hk⟩]
    exact readTarget_unwritten_lut hv
  case glh =>
    rw [readWord_element (t := .glh a) (by omega) ⟨rfl, ha⟩, map_getElem?_eq_some_getD _ none (by omega)]; rfl
  case cp =>
    rw [readWord_element (t := .cp j) (by omega) ⟨rfl, hj⟩, map_getElem?_eq_some_getD _ ⟨0, .black⟩ (by omega)]; rfl
  case pix =>
    rw [readWord_element (t := .pix i) (by omega) ⟨rfl, hi⟩, map_getElem?_eq_some_getD _ .black (by omega)]; rfl
  case number => rw [beatAt, List.getD_eq_getElem?_getD, hb, Option.getD_some]

/-! ### STATUS -/

/-- `STATUS` as a number: each field above the widths of those below it (10_state.md R33). -/
theorem statusWord_toNat (s : State) :
    (statusWord s).toNat = s.finfo.toNat * 2 ^ 16 + s.fcode.toNat * 2 ^ 4 + (sinit s).toNat * 2 ^ 3 +
      (pvalid s).toNat * 2 ^ 2 + s.fault.toNat * 2 + s.busy.toNat := by
  simp only [statusWord, append_toNat_eq_add, BitVec.toNat_ofBool]
  have hzero : (0 : Byte).toNat = 0 := rfl
  omega

/-- A flag of `STATUS` as a binary digit of its number. -/
theorem statusWord_flag {s : State} {k : Nat} {b : Bool} (h : (statusWord s).toNat / 2 ^ k % 2 = b.toNat) :
    (statusWord s).getLsbD k = b := by
  rw [BitVec.getLsbD, Nat.testBit_eq_decide_div_mod_eq, h]
  cases b <;> rfl

/-- A wider field of `STATUS` as a digit of its number. -/
theorem statusWord_field {s : State} {k n : Nat} {x : BitVec n} (h : (statusWord s).toNat / 2 ^ k % 2 ^ n = x.toNat) :
    (statusWord s).extractLsb' k n = x := by
  apply BitVec.eq_of_toNat_eq
  rw [BitVec.extractLsb'_toNat, Nat.shiftRight_eq_div_pow, h]

/-- Settles O51: every field is a digit of the number `STATUS` is. -/
theorem statusFields : Obligations.StatusFields := by
  intro s
  have hnum := statusWord_toNat s
  have hb := Bool.toNat_le s.busy
  have hf := Bool.toNat_le s.fault
  have hp := Bool.toNat_le (pvalid s)
  have hi := Bool.toNat_le (sinit s)
  have hcode := s.fcode.isLt
  have hzero : (0 : Byte).toNat = 0 := rfl
  have hbusy : (statusWord s).getLsbD 0 = s.busy := statusWord_flag (by omega)
  have hfault : (statusWord s).getLsbD 1 = s.fault := statusWord_flag (by omega)
  have hpvalid : (statusWord s).getLsbD 2 = pvalid s := statusWord_flag (by omega)
  have hsinit : (statusWord s).getLsbD 3 = sinit s := statusWord_flag (by omega)
  exact ⟨hbusy, hfault, by rw [hpvalid, pvalid, decide_eq_true_iff], hsinit, statusWord_field (by omega),
    statusWord_field (by omega), statusWord_field (by omega), hbusy, hfault⟩

end Sys2Proof.Machine
end

section
/-! What a command leaves unchanged, field by field: the host's registers and every field outside its column of the state
table (10_state.md R20). -/

namespace Sys2Proof.Machine

open Sys2Proof.Safety

/-- Settles O55: fault entry, every effect and every wait leave the host's registers alone. -/
theorem commandsLeaveHostRegisters : Obligations.CommandsLeaveHostRegisters := by
  intro i s t h
  rcases exec_cases h with ⟨-, rfl⟩ | ⟨-, code, info, -, rfl⟩ | ⟨-, -, -, rfl⟩ | ⟨-, -, -, rfl⟩
  · simp only [and_self]
  · simp
  · simp only [effectOf_frame i s, and_self]
  · simp

/-! ### The column of each field -/

/-- A field that fault entry, the command's effect and its wait all leave alone is as it was. -/
theorem exec_keeps {α : Type} (field : State → α) {i : Instr} {s t : State} (h : exec i s = .next t)
    (hraise : ∀ code info word, field (raiseFault code info word s) = field s) (heffect : field (effectOf i s) = field s)
    (hwait : field (hang (boundsOf i s) (waitingOf i s)) = field s) : field t = field s := by
  rcases exec_cases h with ⟨-, rfl⟩ | ⟨-, code, info, -, rfl⟩ | ⟨-, -, -, rfl⟩ | ⟨-, -, -, rfl⟩
  · rfl
  · exact hraise code info (encode i)
  · exact heffect
  · exact hwait

section Column
variable {i : Instr} {s t : State}

theorem effectOf_result (hw : writtenBy i .result = false) : (effectOf i s).result = s.result := by
  cases i
  case gqry => cases hw
  case sample => cases hw
  case sampleb => cases hw
  all_goals rfl

theorem effectOf_palette (hw : writtenBy i .lutv = false) :
    (effectOf i s).lutv = s.lutv ∧ (effectOf i s).lut = s.lut := by
  cases i
  case pbuild => cases hw
  case pblend4 => cases hw
  all_goals exact ⟨rfl, rfl⟩

theorem effectOf_glh {a : Nat} (hw : writtenBy i (.glh a) = false) : (effectOf i s).glh = s.glh := by
  cases i
  case glitter => cases hw
  case rsweepg => cases hw
  all_goals rfl

theorem effectOf_sprev (hw : writtenBy i .sprev = false) : (effectOf i s).sprev = s.sprev := by
  cases i
  case rsinelon => cases hw
  all_goals rfl

theorem effectOf_pix {k : Nat} (hw : writtenBy i (.pix k) = false) : (effectOf i s).pix = s.pix := by
  cases i
  case nop => rfl
  case pbuild => rfl
  case gqry => rfl
  case pblend4 => rfl
  case sample => rfl
  case sampleb => rfl
  all_goals cases hw

theorem waitingOf_glh {a : Nat} (hw : writtenBy i (.glh a) = false) : (waitingOf i s).glh = s.glh := by
  cases i
  case glitter => cases hw
  case rsweepg => cases hw
  all_goals rfl

theorem waitingOf_pix {k : Nat} (hw : writtenBy i (.pix k) = false) : (waitingOf i s).pix = s.pix := by
  cases i
  case glitter => cases hw
  case rsweepg => cases hw
  case rconfetti => cases hw
  case rcandle => cases hw
  all_goals rfl

theorem exec_keeps_result (h : exec i s = .next t) (hw : writtenBy i .result = false) : t.result = s.result :=
  exec_keeps State.result h (by simp) (effectOf_result hw) (by simp)

theorem exec_keeps_lutv (h : exec i s = .next t) (hw : writtenBy i .lutv = false) : t.lutv = s.lutv :=
  exec_keeps State.lutv h (by simp) (effectOf_palette hw).1 (by simp)

theorem exec_keeps_lut (h : exec i s = .next t) (hw : writtenBy i .lutv = false) : t.lut = s.lut :=
  exec_keeps State.lut h (by simp) (effectOf_palette hw).2 (by simp)

theorem exec_keeps_glh {a : Nat} (h : exec i s = .next t) (hw : writtenBy i (.glh a) = false) : t.glh = s.glh :=
  exec_keeps State.glh h (by simp) (effectOf_glh hw) (waitingOf_glh hw)

theorem exec_keeps_sprev (h : exec i s = .next t) (hw : writtenBy i .sprev = false) : t.sprev = s.sprev :=
  exec_keeps State.sprev h (by simp) (effectOf_sprev hw) (by simp)

theorem exec_keeps_pix {k : Nat} (h : exec i s = .next t) (hw : writtenBy i (.pix k) = false) : t.pix = s.pix :=
  exec_keeps State.pix h (by simp) (effectOf_pix hw) (waitingOf_pix hw)

/-- `FAULTCMD` is written by fault entry alone, which sets `FAULT`. -/
theorem exec_keeps_faultcmd (h : exec i s = .next t) (hf : t.fault = s.fault) : t.faultcmd = s.faultcmd := by
  rcases exec_cases h with ⟨-, rfl⟩ | ⟨hs, code, info, -, rfl⟩ | ⟨-, -, -, rfl⟩ | ⟨-, -, -, rfl⟩
  · rfl
  · rw [raiseFault_fault, hs] at hf
    cases hf
  · simp only [effectOf_frame i s]
  · simp

/-- A target outside the command's column reads as before. -/
theorem exec_keeps_readTarget {tgt : Target} (h : exec i s = .next t) (hw : writtenBy i tgt = false)
    (hstatus : tgt ≠ .status) (hcmd : tgt ≠ .faultcmd ∨ t.fault = s.fault) : readTarget t tgt = readTarget s tgt := by
  obtain ⟨hgindex, hframe, hcpcnt, hbeat, hcp, hparams, -, -, hfresh⟩ := commandsLeaveHostRegisters i s t h
  cases tgt <;> simp only [readTarget]
  case status => exact absurd rfl hstatus
  case gindex => rw [hgindex]
  case frame => rw [hframe]
  case cpcnt => rw [hcpcnt]
  case result => rw [exec_keeps_result h hw]
  case npix => rw [hparams]
  case lutv => rw [exec_keeps_lutv h hw]
  case beat => rw [hbeat]
  case lut => rw [exec_keeps_lutv h hw, exec_keeps_lut h hw, hfresh]
  case glh => rw [exec_keeps_glh h hw]
  case sprev => rw [exec_keeps_sprev h hw]
  case faultcmd => rw [exec_keeps_faultcmd h (hcmd.resolve_left fun hne => hne rfl)]
  case cp => rw [hcp]
  case pix => rw [exec_keeps_pix h hw]

end Column

/-- Settles O54: the parameters stay, so an address names the same target after the command, and that target reads as
before. -/
theorem commandsWriteOnlyTheirColumn : Obligations.CommandsWriteOnlyTheirColumn := by
  intro i s t h a tgt ha hw hstatus hcmd
  obtain ⟨-, -, -, -, -, hparams, -⟩ := commandsLeaveHostRegisters i s t h
  rw [readWord_of_addressMap ha, readWord_of_addressMap (hparams ▸ ha)]
  exact exec_keeps_readTarget h hw hstatus hcmd

/-! ### RESULT -/

@[simp] theorem hostRead_result (a : Addr) (s : State) : (hostRead a s).result = s.result := by
  unfold hostRead
  split
  · rfl
  · exact raiseFault_result ..

theorem writeTarget_result {v : Word} {tgt : Target} {s t : State} (h : writeTarget s v tgt = some t) :
    t.result = s.result := by
  cases tgt <;> cases h <;> rfl

@[simp] theorem hostStore_result (a : Addr) (v : Word) (s : State) : (hostStore a v s).result = s.result := by
  unfold hostStore
  split
  · rfl
  · split
    · next t ht =>
      obtain ⟨tgt, -, hstored⟩ := Option.bind_eq_some_iff.mp ht
      exact writeTarget_result hstored
    · exact raiseFault_result ..

/-- A command changes `RESULT` only by its effect, which leaves `FAULT` at 0. -/
theorem exec_result_changed {i : Instr} {s t : State} (h : exec i s = .next t) (hr : t.result ≠ s.result) :
    writtenBy i .result = true ∧ t.fault = false := by
  refine ⟨by_contra fun hw => hr (exec_keeps_result h (Bool.eq_false_iff.mpr hw)), ?_⟩
  rcases exec_cases h with ⟨-, rfl⟩ | ⟨-, code, info, -, rfl⟩ | ⟨hf, -, -, rfl⟩ | ⟨-, -, -, rfl⟩
  · exact absurd rfl hr
  · exact absurd (raiseFault_result ..) hr
  · simpa only [effectOf_frame i s] using hf
  · exact absurd (by simp) hr

/-- The three commands of 10_state.md R25. -/
theorem writtenBy_result {i : Instr} (h : writtenBy i .result = true) :
    ∃ x y, i = .gqry x ∨ i = .sample x ∨ i = .sampleb x y := by
  cases i
  case gqry pos => exact ⟨pos, 0, .inl rfl⟩
  case sample idx => exact ⟨idx, 0, .inr (.inl rfl)⟩
  case sampleb idx bri => exact ⟨idx, bri, .inr (.inr rfl)⟩
  all_goals cases h

/-- Settles O56: of the requests a step can answer, only a reset and a command reach `RESULT`. -/
theorem resultChangesOnlyByItsCommands : Obligations.ResultChangesOnlyByItsCommands := by
  intro s t h hr
  rcases step_cases h with ⟨-, -, rfl⟩ | ⟨rest, hh, -⟩ | ⟨-, a, rest, -, rfl⟩ | ⟨-, a, v, rest, -, -, rfl⟩ |
    ⟨-, -, v, rest, -, rfl⟩ | ⟨-, -, v, rest, why, -, -, rfl⟩ | ⟨-, hf, v, rest, i, hh, hd, he⟩
  · exact absurd rfl hr
  · exact .inl ⟨rest, hh⟩
  · exact absurd (hostRead_result ..) hr
  · exact absurd (hostStore_result ..) hr
  · exact absurd rfl hr
  · exact absurd (raiseFault_result ..) hr
  · obtain ⟨hw, ht⟩ := exec_result_changed he hr
    obtain ⟨x, y, hi⟩ := writtenBy_result hw
    refine .inr ⟨hf, ht, v, rest, hh, x, y, ?_⟩
    simpa only [hd, Decoded.instr.injEq] using hi

end Sys2Proof.Machine
end

section
/-! The invariant of the block: reset meets it and every step keeps it (10_state.md R20, R31, R33, R34, R38,
60_exceptions.md R171, R172). -/

namespace Sys2Proof.Machine

open Sys2Proof.Safety

/-! ### The history names pixels -/

theorem historyInRange_iff {s : State} :
    historyInRange s = true ↔ ∀ idx, some idx ∈ s.glh → idx.toNat < s.params.n := by
  rw [historyInRange, List.all_eq_true]
  refine ⟨fun h idx hmem => by simpa using h (some idx) hmem, fun h slot hmem => ?_⟩
  cases slot
  case none => rfl
  case some idx => exact decide_eq_true (h idx hmem)

/-- The history a glitter step starts from holds no slot that the registers do not hold. -/
theorem mem_glh_of_mem_glitterHistory {s : State} {idx : Half} (h : some idx ∈ glitterHistory s) : some idx ∈ s.glh := by
  by_cases hf : s.frame = 0
  · rw [glitterHistory_first hf] at h
    cases List.eq_of_mem_replicate h
  · rwa [glitterHistory_later hf] at h

theorem glitterAge_keeps_historyInRange {s : State} (h : historyInRange s = true) :
    historyInRange (glitterAge s) = true := by
  rw [historyInRange_iff] at *
  intro idx hmem
  refine h idx (mem_glh_of_mem_glitterHistory ?_)
  rcases List.mem_cons.mp hmem with hfirst | hrest
  · rw [List.getD_eq_getElem?_getD] at hfirst
    rcases hslot : (glitterHistory s)[0]? with _ | slot
    · rw [hslot] at hfirst; cases hfirst
    · rw [hslot] at hfirst; exact hfirst ▸ List.mem_of_getElem? hslot
  · exact List.mem_of_mem_take hrest

/-- A new sparkle names a pixel: its draw is below `N`. -/
theorem newSlot_lt {chance : Nat} {s : State} {idx : Half} (h : newSlot chance s = some idx) :
    idx.toNat < s.params.n := by
  unfold newSlot at h
  split at h
  · obtain rfl := Option.some.inj h
    have hdraw := draw_lt s.source 1 s.params.n_pos
    have hn := s.params.n_le
    rw [BitVec.toNat_ofNat]
    omega
  · cases h

theorem glitterStep_keeps_historyInRange (chance : Nat) {s : State} (h : historyInRange s = true) :
    historyInRange (glitterStep chance s) = true := by
  rw [historyInRange_iff] at *
  intro idx hmem
  rw [glitterStep_glh] at hmem
  rcases List.mem_cons.mp hmem with hnew | hrest
  · exact newSlot_lt (s := s) hnew.symm
  · exact h idx (mem_glh_of_mem_glitterHistory (List.mem_of_mem_take hrest))

/-! ### Commands keep the history's size and range -/

theorem effectOf_keeps_slots (i : Instr) {s : State} (h : s.glh.length = 18) : (effectOf i s).glh.length = 18 := by
  cases i
  case glitter chance => exact glitterStep_glh_length _ h
  case rsweepg => exact glitterStep_glh_length _ (s := { s with pix := sweepPix s }) h
  all_goals exact h

theorem waitingOf_keeps_slots (i : Instr) {s : State} (h : s.glh.length = 18) : (waitingOf i s).glh.length = 18 := by
  cases i
  case glitter chance => exact glitterAge_glh_length h
  case rsweepg => exact glitterAge_glh_length (s := { s with pix := sweepPix s }) h
  all_goals exact h

theorem effectOf_keeps_historyInRange (i : Instr) {s : State} (h : historyInRange s = true) :
    historyInRange (effectOf i s) = true := by
  cases i
  case glitter chance => exact glitterStep_keeps_historyInRange _ h
  case rsweepg => exact glitterStep_keeps_historyInRange _ (s := { s with pix := sweepPix s }) h
  all_goals exact h

theorem waitingOf_keeps_historyInRange (i : Instr) {s : State} (h : historyInRange s = true) :
    historyInRange (waitingOf i s) = true := by
  cases i
  case glitter chance => exact glitterAge_keeps_historyInRange h
  case rsweepg => exact glitterAge_keeps_historyInRange (s := { s with pix := sweepPix s }) h
  all_goals exact h

/-! ### The codes a command's check reports -/

theorem checkPal_code {s : State} {code : FaultCode} {info : Nat} (h : checkPal s = some (code, info)) :
    code = .eNopal := by
  unfold checkPal at h
  split at h
  · cases h
  · cases h; rfl

theorem checkAnchors_code {s : State} {code : FaultCode} {info : Nat} (h : checkAnchors s = some (code, info)) :
    code = .eNopal := by
  unfold checkAnchors at h
  split at h
  · cases h; rfl
  · cases h

theorem checkCP_code {s : State} {code : FaultCode} {info : Nat} (h : checkCP s = some (code, info)) :
    code = .eCpcount ∨ code = .eCporder := by
  have hbad : ¬ GradientOk s := fun hok => by rw [checkCP_eq_none.mpr hok] at h; cases h
  obtain ⟨code', info', hcode, h'⟩ := checkCP_of_not_ok hbad
  rw [h'] at h
  cases h
  exact hcode

theorem checkJuggle_code {s : State} {code : FaultCode} {info : Nat} (h : checkJuggle s = some (code, info)) :
    code = .eNopal ∨ code = .ePixrange := by
  unfold checkJuggle at h
  split at h
  · next hpal => cases h; exact .inl (checkPal_code hpal)
  · split at h
    · cases h; exact .inr rfl
    · cases h

theorem checkCandle_code {s : State} {code : FaultCode} {info : Nat} (h : checkCandle s = some (code, info)) :
    code = .eNopal ∨ code = .eBeatrange := by
  unfold checkCandle at h
  split at h
  · next hpal => cases h; exact .inl (checkPal_code hpal)
  · split at h
    · cases h; exact .inr rfl
    · cases h

theorem checkSinelon_code {s : State} {code : FaultCode} {info : Nat} (h : checkSinelon s = some (code, info)) :
    code = .eNopal ∨ code = .eNoinit := by
  unfold checkSinelon at h
  split at h
  · next hpal => cases h; exact .inl (checkPal_code hpal)
  · split at h
    · cases h; exact .inr rfl
    · cases h

/-- The column "raised by" of 60_exceptions.md R171, read off the checks. -/
theorem mayRaise_of_checkOf {i : Instr} {s : State} {code : FaultCode} {info : Nat}
    (h : checkOf i s = some (code, info)) : mayRaise i (faultNumber code) = true := by
  cases i
  case nop => cases h
  case fade => cases h
  case glitter => cases h
  case pbuild => obtain rfl | rfl := checkCP_code h <;> rfl
  case gqry => obtain rfl | rfl := checkCP_code h <;> rfl
  case pblend4 => cases checkAnchors_code h; rfl
  case rjuggle => obtain rfl | rfl := checkJuggle_code h <;> rfl
  case rcandle => obtain rfl | rfl := checkCandle_code h <;> rfl
  case rsinelon => obtain rfl | rfl := checkSinelon_code h <;> rfl
  all_goals cases checkPal_code h; rfl

/-- No command raises `E_OPCODE` or `E_ADDR`: the first is the decoder's, the second the host port's. -/
theorem mayRaise_faultNumber {i : Instr} {code : FaultCode} (h : mayRaise i (faultNumber code) = true) :
    code ≠ .eOpcode ∧ code ≠ .eAddr := by
  constructor
  · rintro rfl
    cases i <;> cases h
  · rintro rfl
    cases i <;> cases h

/-! ### Fault entry -/

/-- A code and the word recorded with it agree as 60_exceptions.md R171 says: what `Inv` asks of a frozen block. -/
structure RecordAgrees (number : BitVec 4) (word : Word) : Prop where
  range   : 1 ≤ number.toNat ∧ number.toNat ≤ 8
  illegal : number = 1 → legalWord word = false
  command : 2 ≤ number.toNat → number.toNat ≤ 7 → legalWord word = true
  access  : number = 8 → word = 0

theorem recordAgrees_illegal {word : Word} (h : legalWord word = false) :
    RecordAgrees (faultNumber .eOpcode) word where
  range := by decide
  illegal := fun _ => h
  command := fun hlow => absurd hlow (by decide)
  access := fun hcode => absurd hcode (by decide)

theorem recordAgrees_access : RecordAgrees (faultNumber .eAddr) 0 where
  range := by decide
  illegal := fun hcode => absurd hcode (by decide)
  command := fun _ hhigh => absurd hhigh (by decide)
  access := fun _ => rfl

theorem recordAgrees_command {code : FaultCode} {word : Word} (hop : code ≠ .eOpcode) (haddr : code ≠ .eAddr)
    (h : legalWord word = true) : RecordAgrees (faultNumber code) word where
  range := by cases code <;> decide
  illegal := fun hcode => by
    cases code
    case eOpcode => exact absurd rfl hop
    all_goals exact absurd hcode (by decide)
  command := fun _ _ => h
  access := fun hcode => by
    cases code
    case eAddr => exact absurd rfl haddr
    all_goals exact absurd hcode (by decide)

/-- A command faults with its own word, which is legal. -/
theorem recordAgrees_encode {i : Instr} {s : State} {code : FaultCode} {info : Nat}
    (h : checkOf i s = some (code, info)) : RecordAgrees (faultNumber code) (encode i) := by
  obtain ⟨hop, haddr⟩ := mayRaise_faultNumber (mayRaise_of_checkOf h)
  exact recordAgrees_command hop haddr (legalWord_encode i)

theorem raiseFault_keeps_inv {s : State} (h : Inv s) (hb : s.busy = false) {code : FaultCode} {word : Word}
    (hrecord : RecordAgrees (faultNumber code) word) (info : Nat) : Inv (raiseFault code info word s) := by
  cases hf : s.fault
  · rw [raiseFault_of_live hf]
    exact { h with
      clean := fun hlive => by cases hlive
      code := fun _ => hrecord.range
      illegal := hrecord.illegal
      command := hrecord.command
      access := hrecord.access
      waiting := fun hbusy => by rw [hb] at hbusy; cases hbusy }
  · rwa [raiseFault_of_fault hf]

/-! ### The parts of a step -/

section Keeps
variable {s t : State}

theorem takeRequest_keeps_inv (rest : List PortEvent) (h : Inv s) : Inv (takeRequest rest s) := { h with }

theorem hostRead_keeps_inv (a : Addr) (h : Inv s) (hb : s.busy = false) : Inv (hostRead a s) := by
  unfold hostRead
  split
  · exact { h with }
  · exact { raiseFault_keeps_inv h hb recordAgrees_access a.toNat with }

theorem writeTarget_keeps_inv {v : Word} {tgt : Target} (h : Inv s) (ht : writeTarget s v tgt = some t) : Inv t := by
  have hmem := writeTarget_keeps_wf h.memory ht
  cases tgt
  case beat d =>
    cases ht
    exact { h with memory := hmem, beats := (List.length_set ..).trans h.beats }
  all_goals cases ht
  all_goals exact { h with memory := hmem }

theorem hostStore_keeps_inv (a : Addr) (v : Word) (h : Inv s) (hb : s.busy = false) : Inv (hostStore a v s) := by
  unfold hostStore
  split
  · exact h
  · split
    · next t ht =>
      obtain ⟨tgt, -, hstored⟩ := Option.bind_eq_some_iff.mp ht
      exact writeTarget_keeps_inv h hstored
    · exact raiseFault_keeps_inv h hb recordAgrees_access _

/-- An effect touches no fault register, so only the files need an argument. -/
theorem effectOf_keeps_inv (i : Instr) (h : Inv s) : Inv (effectOf i s) := by
  have hmem := effectOf_keeps_wf i h.memory
  have hslots := effectOf_keeps_slots i h.slots
  have hpixels := effectOf_keeps_historyInRange i h.pixels
  cases i <;> exact { h with memory := hmem, slots := hslots, pixels := hpixels }

/-- A command that waits has passed its checks, so the block it leaves is not frozen. -/
theorem hang_keeps_inv (i : Instr) (bounds : List Nat) (h : Inv s) (hf : s.fault = false) :
    Inv (hang bounds (waitingOf i s)) := by
  have hmem := waitingOf_keeps_wf i h.memory
  have hslots := waitingOf_keeps_slots i h.slots
  have hpixels := waitingOf_keeps_historyInRange i h.pixels
  rw [waitingOf_eq] at *
  exact { h with memory := hmem, slots := hslots, pixels := hpixels, waiting := fun _ => hf }

theorem exec_keeps_inv {i : Instr} (h : Inv s) (hb : s.busy = false) (ht : exec i s = .next t) : Inv t := by
  rcases exec_cases ht with ⟨-, rfl⟩ | ⟨-, code, info, hc, rfl⟩ | ⟨-, -, -, rfl⟩ | ⟨hf, -, -, rfl⟩
  · exact h
  · exact raiseFault_keeps_inv h hb (recordAgrees_encode hc) info
  · exact effectOf_keeps_inv i h
  · exact hang_keeps_inv i _ h hf

end Keeps

/-! ### Reset -/

theorem resetOf_inv (p : Params) (epoch : Nat) : Inv (State.resetOf p epoch) where
  memory := resetOf_wf p epoch
  beats := rfl
  slots := rfl
  pixels := rfl
  clean := fun _ => ⟨rfl, rfl, rfl⟩
  code := fun h => by cases h
  illegal := fun h => absurd (show (0 : BitVec 4) = 1 from h) (by decide)
  command := fun h => absurd (show 2 ≤ (0 : BitVec 4).toNat from h) (by decide)
  access := fun _ => rfl
  waiting := fun _ => rfl

theorem assertReset_inv (s : State) : Inv (assertReset s) := { resetOf_inv s.params s.fresh with }

/-- Settles O8: reset leaves every file its size, an empty history and clear fault registers. -/
theorem resetMeetsInvariant : Obligations.ResetMeetsInvariant := ⟨resetOf_inv _ _, resetOf_inv⟩

/-- Settles O9: each thing a step can do keeps the invariant; a block that is busy answers nothing but a reset. -/
theorem stepKeepsInvariant : Obligations.StepKeepsInvariant := by
  intro s t h ht
  have htake := fun rest => takeRequest_keeps_inv rest h
  rcases step_cases ht with ⟨-, -, rfl⟩ | ⟨rest, -, rfl⟩ | ⟨hb, a, rest, -, rfl⟩ | ⟨hb, a, v, rest, -, -, rfl⟩ |
    ⟨-, -, v, rest, -, rfl⟩ | ⟨hb, -, v, rest, why, -, hd, rfl⟩ | ⟨hb, -, v, rest, i, -, -, he⟩
  · exact h
  · exact assertReset_inv _
  · exact hostRead_keeps_inv a (htake rest) hb
  · exact hostStore_keeps_inv a v (htake rest) hb
  · exact htake rest
  · exact raiseFault_keeps_inv (htake rest) hb (recordAgrees_illegal (legalWord_of_reject hd)) 0
  · exact exec_keeps_inv (htake rest) hb he

/-! ### The reset state -/

/-- `PBUILD` and `GQRY` find no list after reset (10_state.md R38). -/
theorem exec_of_empty_list {i : Instr} {s : State} (hf : s.fault = false) (hn : s.cpcnt = 0)
    (hi : checkOf i = checkCP) : exec i s = .next (faulted 2 0 (encode i) s) := by
  have hc : checkOf i s = some (.eCpcount, s.cpcnt.toNat) := by
    rw [hi]
    exact checkCP_of_count (.inl (by rw [hn]; decide))
  rw [exec_of_check_some hf hc, hn]
  rfl

theorem exec_pblend4_of_empty_palette {s : State} (hf : s.fault = false) (hl : s.lutv = 0) :
    exec .pblend4 s = .next (faulted 4 0 (encode .pblend4) s) := by
  rw [exec_pblend4_of_no_anchor hf ⟨0, .inl rfl, by rw [hl]; rfl⟩, hl]
  rfl

/-- A pixel the block has reads as the colour that stands there. -/
theorem readWord_pix {s : State} (hwf : Memory.wf s = true) {a : Addr} (hlow : 0x400 ≤ a.toNat)
    (hhigh : a.toNat < 0x400 + s.params.n) :
    ∃ c, s.pix[a.toNat - 0x400]? = some c ∧ readWord s a = some (packColour c) := by
  obtain ⟨-, -, hpix⟩ := (memory_wf_iff s).mp hwf
  exact ⟨_, getElem?_of_pixAt (by omega), readWord_of_addressMap (addressMap_pix hlow hhigh)⟩

theorem statusWord_assertReset (s : State) : statusWord (assertReset s) = 0 := by
  apply BitVec.eq_of_toNat_eq
  simp [statusWord_toNat, sinit, pvalid]

/-- Settles O10: after reset the palette is invalid and the list is empty, so no check that guards them passes. -/
theorem resetValues : Obligations.ResetValues := by
  intro s rest hh
  refine ⟨_, step_rst hh, rfl, rfl, rfl, rfl, rfl, fun d hd => ?beats, fun a ha => ?slots, rfl,
    statusWord_assertReset _, rfl, rfl, rfl, rfl, fun i hi => ?palette, fun i pos hi => ?list,
    fun a => readWord_pix (assertReset_wf _)⟩
  case beats => rw [assertReset_beat, List.getElem?_replicate, if_pos hd]
  case slots => rw [assertReset_glh, List.getElem?_replicate, if_pos ha]
  case palette =>
    rcases hi with hi | rfl
    · exact exec_of_no_palette rfl hi (by rw [assertReset_lutv]; decide)
    · exact exec_pblend4_of_empty_palette rfl rfl
  case list =>
    rcases hi with rfl | rfl
    · exact exec_of_empty_list rfl rfl rfl
    · exact exec_of_empty_list rfl rfl rfl

end Sys2Proof.Machine
end

section
/-! The host port: the accesses the map permits and those it does not (20_memory.md R63 to R65, R68). -/

namespace Sys2Proof.Machine

open Sys2Proof.Safety

/-! ### Reads and forbidden writes -/

/-- Settles O48: no word stands at such an address, so a read of it finds none and a write of it stores none. -/
theorem accessesTheMapDoesNotPermit : Obligations.AccessesTheMapDoesNotPermit := by
  refine ⟨fun s a rest hb hh ha => ?read, fun s a v rest hb hh ha hf => step_write_of_none hb hf hh ha⟩
  have hword : readWord s a = none := readWord_eq_none.mpr ha
  exact ⟨fun hf => step_read_of_none hb hf hh hword, fun hf => step_read_of_none_frozen hb hf hh hword⟩

/-- A word stands at every mapped address but `CMD`. -/
theorem exists_readWord {s : State} {a : Addr} (hcmd : a ≠ 0x000) (hmap : ¬ unmapped s.params a) :
    ∃ w, readWord s a = some w :=
  Option.ne_none_iff_exists'.mp fun hnone => (readWord_eq_none.mp hnone).elim hcmd hmap

/-- Settles O49: the read is answered with the word that stands at the address. -/
theorem permittedReadsChangeNothing : Obligations.PermittedReadsChangeNothing := by
  intro s a rest hb hh hcmd hmap
  obtain ⟨w, hw⟩ := exists_readWord hcmd hmap
  obtain ⟨f, hstep⟩ := step_read_of_some hb hh hw
  exact ⟨w, f, hw, hstep⟩

end Sys2Proof.Machine
end

section
/-! A command and the random source: it takes all its answers, or waits for the first that does not come, or makes no
exchange (20_memory.md R66, R74). -/

namespace Sys2Proof.Machine

open Sys2Proof.Safety

section Commands
variable {i : Instr} {s : State}

theorem exec_of_answered (hf : s.fault = false) (hc : checksPass i s)
    (hd : answersAll s.source (drawBounds i s).length = true) : exec i s = .next (effectOf i s) :=
  exec_of_check_none hf (checkOf_eq_none.mpr hc) (by rwa [boundsOf_eq_drawBounds])

theorem exec_of_unanswered (hf : s.fault = false) (hc : checksPass i s)
    (hd : answersAll s.source (drawBounds i s).length = false) :
    exec i s = .next (hang (drawBounds i s) (waitingOf i s)) := by
  rw [← boundsOf_eq_drawBounds] at *
  exact exec_of_silence hf (checkOf_eq_none.mpr hc) hd

/-- A command that is ignored or faults changes neither `BUSY` nor the source. -/
theorem exec_of_not_run (h : s.fault = true ∨ ¬ checksPass i s) :
    ∃ t, exec i s = .next t ∧ t.busy = s.busy ∧ t.source = s.source := by
  cases hf : s.fault
  case true => exact ⟨s, exec_of_fault hf, rfl, rfl⟩
  case false =>
    have hfail : ¬ checksPass i s := h.resolve_left (by simp [hf])
    obtain ⟨⟨code, info⟩, hcheck⟩ := Option.ne_none_iff_exists'.mp (mt checkOf_eq_none.mp hfail)
    exact ⟨_, exec_of_check_some hf hcheck, rfl, rfl⟩

end Commands

/-- While the block is busy only `rst` gets through. -/
theorem step_of_busy {s : State} (hb : s.busy = true) (hrst : ∀ rest, s.host ≠ .rst :: rest) :
    step s = .fault .hostPortStuck := by
  have hstuck : nextAction s = .stuck := by
    unfold nextAction
    split
    case h_1 rest hh => exact absurd hh (hrst rest)
    all_goals exact if_pos hb
  rw [step, hstuck]

/-- Settles O7, by the frame every command runs in: the effect takes the answers of all bounds, the wait those there
are. -/
theorem commandsFinishOrHangOnTheSource : Obligations.CommandsFinishOrHangOnTheSource := by
  refine ⟨fun i s hf hc hd => ⟨_, exec_of_answered hf hc hd, ?_⟩,
    fun i s hf hc hd => ⟨_, exec_of_unanswered hf hc hd, ?_⟩, fun i s => exec_of_not_run, fun s => step_of_busy⟩
  · have hsource : (effectOf i s).source = afterDraws s.source (drawBounds i s) := by
      rw [effectOf_source, boundsOf_eq_drawBounds]
    simp only [effectOf_frame i s, hf, hsource, afterDraws_asked, afterDraws_answers, afterDraws_silent, and_self]
  · obtain ⟨hsilent, hshort⟩ := answersAll_eq_false.mp hd
    simp [hf, hsilent, afterSilence_answers hshort]

end Sys2Proof.Machine
end

section
/-! A host write and the read after it: what each target keeps of the word, and what the write leaves alone
(20_memory.md R64, R68, R70). -/

namespace Sys2Proof.Machine

open Sys2Proof.Safety

/-! ### Elements after a write -/

theorem getD_set_same {α : Type} {l : List α} {k : Nat} (x y : α) (hk : k < l.length) : (l.set k x).getD k y = x := by
  rw [List.getD_eq_getElem?_getD, List.getElem?_set_self hk, Option.getD_some]

theorem getD_set_other {α : Type} (l : List α) {k j : Nat} (x y : α) (h : k ≠ j) :
    (l.set k x).getD j y = l.getD j y := by
  rw [List.getD_eq_getElem?_getD, List.getElem?_set_ne h, ← List.getD_eq_getElem?_getD]

/-! ### One host write -/

section Write
variable {s t : State} {v : Word} {tgt : Target}

/-- The targets that store nothing: `CMD` and those at the read-only addresses. -/
theorem writeTarget_eq_none : writeTarget s v tgt = none ↔
    tgt = .cmd ∨ tgt = .status ∨ tgt = .result ∨ tgt = .npix ∨ tgt = .lutv ∨ (∃ g, tgt = .glh g) ∨ tgt = .sprev ∨
      tgt = .faultcmd := by
  cases tgt <;> simp [writeTarget]

theorem exists_writeTarget {p : Params} {a : Addr} (hmap : addressMap p a = some tgt) (hcmd : a ≠ 0x000)
    (hro : ¬ readOnly a) : ∃ t, writeTarget s v tgt = some t := by
  refine Option.ne_none_iff_exists'.mp fun hnone => ?_
  rcases writeTarget_eq_none.mp hnone with rfl | hfixed
  · exact hcmd (targetAddr_of_addressMap hmap).symm
  · exact hro ((readOnly_of_addressMap hmap).mpr hfixed)

/-- A write leaves the parameters, the host's list and the fields `STATUS` shows, `LUTV` apart. -/
theorem writeTarget_frame (h : writeTarget s v tgt = some t) :
    t.params = s.params ∧ t.host = s.host ∧ t.busy = s.busy ∧ t.fault = s.fault ∧ t.fcode = s.fcode ∧
      t.finfo = s.finfo ∧ t.sprev = s.sprev := by
  cases tgt <;> cases h <;> simp only [and_self]

/-- A write of a palette entry sets its bit of `LUTV` (10_state.md R27). -/
theorem writeTarget_lut_lutv {k : Nat} (h : writeTarget s v (.lut k) = some t) : t.lutv = s.lutv ||| ((1 : Half) <<< k) := by
  cases h; rfl

theorem writeTarget_lutv (h : writeTarget s v tgt = some t) (hlut : ∀ k, tgt ≠ .lut k) : t.lutv = s.lutv := by
  cases tgt
  case lut k => exact absurd rfl (hlut k)
  all_goals cases h <;> rfl

/-- The written target reads as the bits it keeps; the invariant gives each file the element the address names. -/
theorem readTarget_written {n : Nat} (hinv : Inv s) (hat : isAt s.params n tgt) (h : writeTarget s v tgt = some t) :
    readTarget t tgt = some (keptBits tgt v) := by
  obtain ⟨hlut, hcp, hpix⟩ := (memory_wf_iff s).mp hinv.memory
  cases tgt <;> cases h
  case gindex => exact congrArg some (setWidth_byte_word v)
  case frame => rfl
  case cpcnt => exact congrArg some (setWidth_byte_word v)
  case beat d =>
    simp only [readTarget, keptBits]
    rw [getD_set_same _ _ (hinv.beats.symm ▸ hat.2), setWidth_half_word]
  case lut k =>
    simp only [readTarget, lutAt, keptBits]
    rw [getLsbD_setBit_same _ hat.2, if_pos rfl, getD_set_same _ _ (hlut.symm ▸ hat.2), packColour_unpackColour]
  case cp j =>
    simp only [readTarget, cpAt, keptBits]
    rw [getD_set_same _ _ (hcp.symm ▸ hat.2), packControlPoint_unpackControlPoint]
  case pix i =>
    simp only [readTarget, pixAt, keptBits]
    rw [getD_set_same _ _ (hpix.symm ▸ hat.2), packColour_unpackColour]

/-- Every other target reads as before, `LUTV` and its view in `STATUS` apart. -/
theorem readTarget_not_written {other : Target} (h : writeTarget s v tgt = some t) (hne : other ≠ tgt)
    (hstatus : other ≠ .status) (hlutv : other ≠ .lutv) : readTarget t other = readTarget s other := by
  cases tgt <;> cases h
  case gindex =>
    cases other
    case gindex => exact absurd rfl hne
    all_goals rfl
  case frame =>
    cases other
    case frame => exact absurd rfl hne
    all_goals rfl
  case cpcnt =>
    cases other
    case cpcnt => exact absurd rfl hne
    all_goals rfl
  case beat d =>
    cases other
    case beat e =>
      have hde : d ≠ e := fun heq => hne (congrArg Target.beat heq.symm)
      simp only [readTarget]
      rw [getD_set_other _ _ _ hde]
    all_goals rfl
  case lut k =>
    cases other
    case status => exact absurd rfl hstatus
    case lutv => exact absurd rfl hlutv
    case lut j =>
      have hkj : k ≠ j := fun heq => hne (congrArg Target.lut heq.symm)
      simp only [readTarget, lutAt]
      rw [getLsbD_setBit_other _ hkj.symm, getD_set_other _ _ _ hkj]
    all_goals rfl
  case cp k =>
    cases other
    case cp j =>
      have hkj : k ≠ j := fun heq => hne (congrArg Target.cp heq.symm)
      simp only [readTarget, cpAt]
      rw [getD_set_other _ _ _ hkj]
    all_goals rfl
  case pix k =>
    cases other
    case pix j =>
      have hkj : k ≠ j := fun heq => hne (congrArg Target.pix heq.symm)
      simp only [readTarget, pixAt]
      rw [getD_set_other _ _ _ hkj]
    all_goals rfl

/-! ### STATUS after a write -/

/-- `LUTV` shows in `STATUS` as `PVALID` alone. -/
theorem statusWord_writeTarget_getLsbD (h : writeTarget s v tgt = some t) {j : Nat} (hj : j ≠ 2) :
    (statusWord t).getLsbD j = (statusWord s).getLsbD j := by
  obtain ⟨-, -, hbusy, hfault, hcode, hinfo, hsprev⟩ := writeTarget_frame h
  simp only [statusWord, sinit, hbusy, hfault, hcode, hinfo, hsprev, BitVec.getLsbD_append]
  by_cases hlow : j < 2
  · interval_cases j <;> rfl
  · simp only [show ¬ j - 1 - 1 < 1 by omega, if_false]

theorem statusWord_writeTarget (h : writeTarget s v tgt = some t) (hlut : ∀ k, tgt ≠ .lut k) :
    statusWord t = statusWord s := by
  obtain ⟨-, -, hbusy, hfault, hcode, hinfo, hsprev⟩ := writeTarget_frame h
  simp only [statusWord, sinit, pvalid, hbusy, hfault, hcode, hinfo, hsprev, writeTarget_lutv h hlut]

end Write

/-- An address other than those of `STATUS` and `LUTV` and the written one reads as before. -/
theorem readWord_not_written {s t : State} {v : Word} {tgt : Target} {a b : Addr} (h : writeTarget s v tgt = some t)
    (hmap : addressMap s.params a = some tgt) (hne : b ≠ a) (hstatus : b ≠ 0x001) (hlutv : b ≠ 0x007) :
    readWord t b = readWord s b := by
  obtain ⟨hparams, -⟩ := writeTarget_frame h
  rcases hb : addressMap s.params b with _ | other
  · rw [readWord, readWord, hparams, hb]
  · have hat := targetAddr_of_addressMap hb
    rw [readWord_of_addressMap hb, readWord_of_addressMap (hparams ▸ hb)]
    refine readTarget_not_written h ?_ ?_ ?_
    · rintro rfl; exact hne (hat.symm.trans (targetAddr_of_addressMap hmap))
    · rintro rfl; exact hstatus hat.symm
    · rintro rfl; exact hlutv hat.symm

/-- Settles O52: the write stores in the target the address names, which the read then finds as the bits it keeps. -/
theorem writeThenReadReturnsTheKeptBits : Obligations.WriteThenReadReturnsTheKeptBits := by
  intro s a v rest hinv hb hf hh hcmd hro hmapped
  obtain ⟨tgt, hmap⟩ := Option.ne_none_iff_exists'.mp (mt addressMap_eq_none.mp hmapped)
  obtain ⟨t, ht⟩ := exists_writeTarget (s := takeRequest (.read a :: rest) s) (v := v) hmap hcmd hro
  obtain ⟨hparams, hhost, hbusy, hfault, -⟩ := writeTarget_frame ht
  have hword : readWord t a = some (keptBits tgt v) := by
    rw [readWord_of_addressMap (t := tgt) (hparams.symm ▸ hmap)]
    exact readTarget_written (takeRequest_keeps_inv _ hinv) (isAt_of_addressMap hmap) ht
  obtain ⟨f, hread⟩ := step_read_of_some (hbusy.trans hb) hhost hword
  refine ⟨t, _, tgt, step_write_of_some hb hf hh hcmd hmap ht, hread, hmap, rfl, hfault.trans hf,
    fun k hk => ?lut, fun b hne hstatus hlutv => ?others, fun hlut => ?rest⟩
  case lut =>
    subst hk
    have hlutv := writeTarget_lut_lutv ht
    obtain ⟨-, -, hpvalid, -⟩ := statusFields t
    exact ⟨hlutv, hpvalid, fun j hj => statusWord_writeTarget_getLsbD ht hj⟩
  case others => rw [readWord_not_written ht hmap hne hstatus hlutv, readWord_takeRequest]
  case rest =>
    have hlutv := writeTarget_lutv ht hlut
    have hstatus := statusWord_writeTarget ht hlut
    exact ⟨hlutv, hstatus⟩

end Sys2Proof.Machine
end

section
/-! A command stuck on a draw has done what its pseudocode puts before that draw (20_memory.md R66, R70, R74). -/

namespace Sys2Proof.Machine

open Sys2Proof.Safety

/-! ### The candle's pixels -/

theorem pix_length_of_inv {s : State} (hinv : Inv s) : s.pix.length = s.params.n := by
  obtain ⟨-, -, hpix⟩ := (memory_wf_iff s).mp hinv.memory
  exact hpix

/-- A pixel whose draw was answered (41_sampler.md R128). -/
theorem chan_candlePixel (s : State) (i : Nat) (ch : Channel) (hsum : beatAt s 0 + beatAt s 1 ≤ 255) :
    chan ch (candlePixel s i) =
      chan ch (sampleLut s.lut (BitVec.ofNat 8 ((s.gindex.toNat + 3 * i) % 256)))
        * (beatAt s 0 + beatAt s 1 - draw s.source i 10) / 255 := by
  rw [candlePixel, chan_scaleC ch _ (by omega), sampleAt_eq]

/-- A buffer painted up to a pixel: the new colours before it, the old ones from it on. -/
theorem paint_upTo_getElem? {s : State} {f : Nat → Colour} {k i : Nat} (hlen : s.pix.length = s.params.n)
    (hi : i < s.params.n) :
    (paint s fun i => if i < k then f i else pixAt s.pix i)[i]? = if i < k then some (f i) else s.pix[i]? := by
  rw [paint_getElem? hi, getElem?_of_pixAt (by omega)]
  split <;> rfl

/-! ### The glitter lights -/

/-- A slot of the history, read with a default, is valid exactly when it stands in the list. -/
theorem getD_none_eq_some {hist : List (Option Half)} {k : Nat} {idx : Half} :
    hist.getD k none = some idx ↔ hist[k]? = some (some idx) := by
  rw [List.getD_eq_getElem?_getD, Option.getD_eq_iff]
  simp

/-- The lights of the slots add up the same in either order of the ages. -/
theorem sum_agesDown (g : Nat → Nat) : (agesDown.map g).sum = ((List.range' 1 17).map g).sum := by
  have hperm : agesDown.Perm (List.range' 1 17) := by decide
  exact (hperm.map g).sum_eq

/-- The pixels after the lights of a frame that is not the first: each valid slot adds the brightness of its age
(42_overlays.md R143). -/
theorem chan_glitterAge_later {s : State} (hinv : Inv s) (hframe : s.frame ≠ 0) (ch : Channel) {i : Nat}
    (hi : i < s.params.n) :
    chan ch (pixAt (glitterAge s).pix i) = min 255 (chan ch (pixAt s.pix i) +
      ((List.range' 1 17).map fun a =>
        if s.glh[a - 1]? = some (some (BitVec.ofNat 16 i)) then s.params.glitB a else 0).sum) := by
  have hpix := pix_length_of_inv hinv
  have hn := s.params.n_le
  rw [chan_glitterAge s ch (by omega) (by omega), sum_agesDown, glitterHistory_later hframe]
  simp only [getD_none_eq_some]

/-- On the first frame the aged history is empty. -/
theorem glitterAge_glh_first {s : State} (hlen : s.glh.length = 18) (hframe : s.frame = 0) {a : Nat} (ha : a < 18) :
    (glitterAge s).glh[a]? = some none := by
  have hhist : ∀ b, b < 18 → (glitterHistory s)[b]? = some none := fun b hb => by
    rw [glitterHistory_first hframe, List.getElem?_replicate, if_pos hb]
  cases a
  case zero => rw [glitterAge_glh_zero hlen, hhist 0 ha]
  case succ a => rw [glitterAge_glh_succ s (by omega), hhist a (by omega)]

/-! ### The sweep -/

theorem exec_rsweep {s : State} (hf : s.fault = false) (hl : s.lutv = 0xFFFF) :
    exec .rsweep s = .next { s with pix := sweepPix s } :=
  exec_of_answered hf hl (answersAll_zero _)

/-- The chance of `RSWEEPG` is an immediate of `GLITTER`: at most 100 (42_overlays.md R145). -/
theorem ofNat_sweepChance_toNat (s : State) : (BitVec.ofNat 8 (min (s.frame.toNat / 20) 100)).toNat = sweepChance s := by
  rw [BitVec.toNat_ofNat, sweepChance]
  omega

/-- A sweep changes no draw of the glitter step after it. -/
theorem drawBounds_glitter_of_sweep (s : State) :
    drawBounds (.glitter (BitVec.ofNat 8 (min (s.frame.toNat / 20) 100))) { s with pix := sweepPix s } =
      drawBounds .rsweepg s := by
  simp only [drawBounds, ofNat_sweepChance_toNat]
  rfl

/-- `GLITTER` with that chance waits on the swept buffer for the draw `RSWEEPG` waits for. -/
theorem exec_glitter_of_sweep_unanswered {s : State} (hf : s.fault = false)
    (hd : answersAll s.source (drawBounds .rsweepg s).length = false) :
    exec (.glitter (BitVec.ofNat 8 (min (s.frame.toNat / 20) 100))) { s with pix := sweepPix s } =
      .next (hang (drawBounds .rsweepg s) (glitterAge { s with pix := sweepPix s })) := by
  rw [← drawBounds_glitter_of_sweep] at *
  exact exec_of_unanswered (s := { s with pix := sweepPix s }) hf trivial hd

/-! ### The four commands that draw -/

/-- Settles O59: the wait of each command, in closed form. -/
theorem waitingCommandsHaveDoneWhatPrecedesTheDraw : Obligations.WaitingCommandsHaveDoneWhatPrecedesTheDraw := by
  refine ⟨fun s hinv hf hl hsum hd => ?rcandle, fun s hinv hf hl hd => ?rconfetti, fun s chance hinv hf hd => ?glitter,
    fun s hf hl hd => ?rsweepg⟩
  case rcandle =>
    have hbounds : (drawBounds .rcandle s).length = s.params.n := List.length_replicate
    refine ⟨_, exec_of_unanswered hf ⟨hl, hsum⟩ (hbounds ▸ hd), rfl, paint_length _ _, fun i hi => ?_⟩
    have hpixel := paint_upTo_getElem? (f := candlePixel s) (k := s.source.answers.length) (pix_length_of_inv hinv) hi
    refine ⟨fun hans ch => ?answered, fun hwait => ?untouched⟩
    case answered =>
      rw [if_pos hans] at hpixel
      exact (congrArg (chan ch) (pixAt_of_getElem? hpixel)).trans (chan_candlePixel s i ch hsum)
    case untouched => rwa [if_neg (by omega)] at hpixel
  case rconfetti =>
    have hpix := pix_length_of_inv hinv
    have hbounds : (drawBounds .rconfetti s).length = beatAt s 0 := List.length_replicate
    refine ⟨_, exec_of_unanswered hf hl (hbounds ▸ hd), rfl, (confettiPix_length _ _).trans hpix, fun i ch hi => ?_⟩
    simp only [← sampleAt_eq]
    exact chan_confettiPix s _ ch (by omega)
  case glitter =>
    refine ⟨_, exec_of_unanswered hf trivial hd, rfl, glitterAge_glh_length hinv.slots,
      (glitterAge_pix_length s).trans (pix_length_of_inv hinv), fun hframe => ?first, fun hframe => ?later⟩
    case first => exact ⟨glitterAge_pix_first hframe, fun a ha => glitterAge_glh_first hinv.slots hframe ha⟩
    case later =>
      have hhist := glitterHistory_later hframe
      exact ⟨hhist ▸ glitterAge_glh_zero hinv.slots, fun a ha => hhist ▸ glitterAge_glh_succ s ha,
        fun i ch hi => chan_glitterAge_later hinv hframe ch hi⟩
  case rsweepg =>
    exact ⟨_, _, exec_rsweep hf hl, exec_glitter_of_sweep_unanswered hf hd, exec_of_unanswered hf hl hd, rfl⟩

end Sys2Proof.Machine
end

section
/-! Command words and commands correspond one to one, and the legal words are those of the opcode table
(30_encoding.md R80 to R83). -/

namespace Sys2Proof.Machine

open Sys2Proof.Safety

/-! ### The one word of a command -/

section Formats
variable {w : Word} {j : Instr}

/-- A word format Z admits is its opcode over zeros (R80). -/
theorem encode_of_formatZ {i : Instr} (h : formatZ w i = .instr j) (hop : (opField w).toNat = (opcode i).toNat)
    (henc : encode i = packCommand (opcode i) 0 0) : encode j = w := by
  obtain ⟨rfl, hz, h1, h0⟩ := formatZ_instr h
  have hw := packCommand_fields hz
  rwa [h1, h0, BitVec.eq_of_toNat_eq hop, ← henc] at hw

/-- A word format A admits is its opcode and its one immediate (R80). -/
theorem encode_of_formatA {i : Byte → Instr} (h : formatA w i = .instr j)
    (hop : (opField w).toNat = (opcode (i 0)).toNat) (henc : ∀ x, encode (i x) = packCommand (opcode (i 0)) 0 x) :
    encode j = w := by
  obtain ⟨rfl, hz, h1⟩ := formatA_instr h
  have hw := packCommand_fields hz
  rwa [h1, BitVec.eq_of_toNat_eq hop, ← henc] at hw

/-- A word format B admits is its opcode and its two immediates (R80). -/
theorem encode_of_formatB {i : Byte → Byte → Instr} (h : formatB w i = .instr j)
    (hop : (opField w).toNat = (opcode (i 0 0)).toNat)
    (henc : ∀ x y, encode (i x y) = packCommand (opcode (i 0 0)) y x) : encode j = w := by
  obtain ⟨rfl, hz⟩ := formatB_instr h
  have hw := packCommand_fields hz
  rwa [BitVec.eq_of_toNat_eq hop, ← henc] at hw

end Formats

/-- By the format of the row that answered: of the decoder's seventeen arms 3, 5, 15 and 16 are format A, 6 is format B,
the last rejects and the others are format Z (R82). -/
theorem encode_of_decode {w : Word} {i : Instr} (h : decode w = .instr i) : encode i = w := by
  unfold decode at h
  split at h
  case h_3 hop | h_5 hop | h_15 hop | h_16 hop => exact encode_of_formatA h hop fun _ => rfl
  case h_6 hop => exact encode_of_formatB h hop fun _ _ => rfl
  case h_17 => cases h
  all_goals exact encode_of_formatZ h ‹_› rfl

theorem decode_eq_instr {w : Word} {i : Instr} : decode w = .instr i ↔ encode i = w :=
  ⟨encode_of_decode, fun h => h ▸ decode_encode i⟩

/-- Settles O1: a packed word gives back the fields it was packed from, and the opcode picks the row of the command. -/
theorem decodeOfEncodeIsTheCommand : Obligations.DecodeOfEncodeIsTheCommand := fun i _ => decode_encode i

/-- Settles O2: the row that answers fixes the opcode and the zero fields, and the word is its fields. -/
theorem encodeOfDecodeIsTheWord : Obligations.EncodeOfDecodeIsTheWord := fun _ _ => encode_of_decode

/-- Settles O4: the eight words are given, and the decoder computes. -/
theorem writtenOutWordsDecode : Obligations.WrittenOutWordsDecode := by
  unfold Obligations.WrittenOutWordsDecode
  decide

/-! ### The opcode table -/

/-- A byte of a word that a mask keeps whole is the masked word's. -/
theorem extractByte_of_mask {w mask pattern : Word} (h : w &&& mask = pattern) {k : Nat}
    (hmask : mask.extractLsb' k 8 = BitVec.allOnes 8) : w.extractLsb' k 8 = pattern.extractLsb' k 8 := by
  rw [← h, BitVec.extractLsb'_and, hmask, BitVec.and_allOnes]

section Masks
variable {w : Word} {op : Byte}

/-- The fields that formats A and B keep fixed, bits 31:16 (R80). -/
theorem packCommand_of_maskB (h : w &&& 0xFFFF0000 = packCommand op 0 0) : packCommand op (imm1 w) (imm0 w) = w := by
  have hop : opField w = op := (extractByte_of_mask h rfl).trans (opField_packCommand op 0 0)
  have hz : zeroField w = 0 := (extractByte_of_mask h rfl).trans (zeroField_packCommand op 0 0)
  rw [← hop, packCommand_fields hz]

theorem packCommand_of_maskA (h : w &&& 0xFFFFFF00 = packCommand op 0 0) : packCommand op 0 (imm0 w) = w := by
  have hop : opField w = op := (extractByte_of_mask h rfl).trans (opField_packCommand op 0 0)
  have hz : zeroField w = 0 := (extractByte_of_mask h rfl).trans (zeroField_packCommand op 0 0)
  have h1 : imm1 w = 0 := (extractByte_of_mask h rfl).trans (imm1_packCommand op 0 0)
  rw [← hop, ← h1, packCommand_fields hz]

theorem packCommand_of_maskZ (h : w &&& 0xFFFFFFFF = packCommand op 0 0) : packCommand op 0 0 = w :=
  h.symm.trans BitVec.and_allOnes

end Masks

/-- A mask given by its four bytes acts on each byte. -/
theorem packCommand_and (op i1 i0 m3 m2 m1 m0 : Byte) :
    packCommand op i1 i0 &&& (m3 ++ m2 ++ m1 ++ m0) = packCommand (op &&& m3) (i1 &&& m1) (i0 &&& m0) := by
  change (op ++ 0#8 ++ i1 ++ i0 : BitVec (8 + 8 + 8 + 8)) &&& (m3 ++ m2 ++ m1 ++ m0) = _
  rw [BitVec.and_append, BitVec.and_append, BitVec.and_append, BitVec.zero_and]
  rfl

theorem packCommand_and_maskA (op i0 : Byte) : packCommand op 0 i0 &&& 0xFFFFFF00 = packCommand op 0 0 := by
  have h := packCommand_and op 0 i0 (.allOnes 8) (.allOnes 8) (.allOnes 8) 0#8
  rwa [BitVec.and_allOnes, BitVec.and_allOnes, BitVec.and_zero] at h

theorem packCommand_and_maskB (op i1 i0 : Byte) : packCommand op i1 i0 &&& 0xFFFF0000 = packCommand op 0 0 := by
  have h := packCommand_and op i1 i0 (.allOnes 8) (.allOnes 8) 0#8 0#8
  rwa [BitVec.and_allOnes, BitVec.and_zero, BitVec.and_zero] at h

/-- Each command's word is admitted by the row of its format and opcode (R80, R82). -/
theorem encode_matches_row (i : Instr) : ∃ row ∈ opcodeTable, encode i &&& row.mask = row.pattern := by
  cases i
  case gqry pos => exact ⟨⟨0xFFFFFF00, _⟩, by decide, packCommand_and_maskA 0x02 pos⟩
  case sample idx => exact ⟨⟨0xFFFFFF00, _⟩, by decide, packCommand_and_maskA 0x10 idx⟩
  case sampleb idx bri => exact ⟨⟨0xFFFF0000, _⟩, by decide, packCommand_and_maskB 0x11 bri idx⟩
  case fade amt => exact ⟨⟨0xFFFFFF00, _⟩, by decide, packCommand_and_maskA 0x30 amt⟩
  case glitter chance => exact ⟨⟨0xFFFFFF00, _⟩, by decide, packCommand_and_maskA 0x31 chance⟩
  all_goals
    refine ⟨⟨0xFFFFFFFF, _⟩, ?_, BitVec.and_allOnes⟩
    decide

/-- Each word a row admits is the word of a command of that row (R82). -/
theorem exists_encode_of_row {w : Word} {row : OpcodeRow} (hrow : row ∈ opcodeTable)
    (h : w &&& row.mask = row.pattern) : ∃ i, encode i = w := by
  simp only [opcodeTable, List.mem_cons, List.not_mem_nil, or_false] at hrow
  rcases hrow with rfl | rfl | rfl | rfl | rfl | rfl | rfl | rfl | rfl | rfl | rfl | rfl | rfl | rfl | rfl | rfl
  · exact ⟨.nop, packCommand_of_maskZ h⟩
  · exact ⟨.pbuild, packCommand_of_maskZ h⟩
  · exact ⟨.gqry (imm0 w), packCommand_of_maskA (op := 0x02) h⟩
  · exact ⟨.pblend4, packCommand_of_maskZ h⟩
  · exact ⟨.sample (imm0 w), packCommand_of_maskA (op := 0x10) h⟩
  · exact ⟨.sampleb (imm0 w) (imm1 w), packCommand_of_maskB (op := 0x11) h⟩
  · exact ⟨.rsweep, packCommand_of_maskZ h⟩
  · exact ⟨.rsweepg, packCommand_of_maskZ h⟩
  · exact ⟨.rleader, packCommand_of_maskZ h⟩
  · exact ⟨.rdist, packCommand_of_maskZ h⟩
  · exact ⟨.rconfetti, packCommand_of_maskZ h⟩
  · exact ⟨.rjuggle, packCommand_of_maskZ h⟩
  · exact ⟨.rsinelon, packCommand_of_maskZ h⟩
  · exact ⟨.rcandle, packCommand_of_maskZ h⟩
  · exact ⟨.fade (imm0 w), packCommand_of_maskA (op := 0x30) h⟩
  · exact ⟨.glitter (imm0 w), packCommand_of_maskA (op := 0x31) h⟩

theorem exists_decode_iff_row {w : Word} :
    (∃ i, decode w = .instr i) ↔ ∃ row ∈ opcodeTable, w &&& row.mask = row.pattern := by
  simp only [decode_eq_instr]
  constructor
  · rintro ⟨i, rfl⟩
    exact encode_matches_row i
  · rintro ⟨row, hrow, h⟩
    exact exists_encode_of_row hrow h

/-- A word that is no command is rejected with a reason. -/
theorem exists_reject_of_no_row {w : Word} (h : ∀ row ∈ opcodeTable, w &&& row.mask ≠ row.pattern) :
    ∃ why, decode w = .reject why := by
  rcases hd : decode w with i | why
  · obtain ⟨row, hrow, hw⟩ := exists_decode_iff_row.mp ⟨i, hd⟩
    exact absurd hw (h row hrow)
  · exact ⟨why, rfl⟩

/-- Executing an illegal word raises `Fault(E_OPCODE, 0)` (60_exceptions.md R176). -/
theorem step_of_reject {s : State} {w : Word} {why : DecodeReject} {rest : List PortEvent}
    (hh : s.host = .write cmdAddr w :: rest) (hb : s.busy = false) (hf : s.fault = false)
    (hd : decode w = .reject why) : step s = .next (faulted 1 0 w (takeRequest rest s)) := by
  unfold step
  rw [nextAction_command hb hh, commandAction, takeRequest_fault, hf, hd]
  exact congrArg _ (raiseFault_eq_faulted (s := takeRequest rest s) hf .eOpcode 0 w)

/-- Settles O3: the words of the table's rows are the encoded commands, and a word outside them has no command. -/
theorem legalWordsAndIllegalOnes : Obligations.LegalWordsAndIllegalOnes := by
  refine ⟨fun w => exists_decode_iff_row, fun w => decode_eq_instr.trans eq_comm, fun s w rest hh hb hf hrow => ?_⟩
  obtain ⟨why, hd⟩ := exists_reject_of_no_row hrow
  exact step_of_reject hh hb hf hd

end Sys2Proof.Machine
end

section
/-! The pseudo-instructions of 30_encoding.md R86: their accesses, and what those of `RAMP` leave on a live block. -/

namespace Sys2Proof.Machine

open Sys2Proof.Safety

/-! ### The accesses -/

/-- Settles O57: packing is the rule's shifts, and an element's address is its file's first one plus its number. -/
theorem pseudoInstructionsExpand : Obligations.PseudoInstructionsExpand := by
  intro x y j k i pos r g b r0 g0 b0 r1 g1 b1 _ _ _
  refine ⟨?ldcp, ?ldlut, ?ldpix, rfl, rfl⟩
  case ldcp => rw [← packControlPoint_eq_or]; exact congrArg (fun a => [PortEvent.write a _]) (BitVec.ofNat_add 0x040 j)
  case ldlut => rw [← packColour_eq_or]; exact congrArg (fun a => [PortEvent.write a _]) (BitVec.ofNat_add 0x010 k)
  case ldpix => rw [← packColour_eq_or]; exact congrArg (fun a => [PortEvent.write a _]) (BitVec.ofNat_add 0x400 i)

/-! ### One access of `RAMP` -/

/-- The block when the host has written control point `j`. -/
def withPoint (j : Nat) (p : ControlPoint) (rest : List PortEvent) (s : State) : State :=
  { takeRequest rest s with cp := s.cp.set j p }

/-- The block when the host has written `CPCNT`. -/
def withCount (n : Byte) (rest : List PortEvent) (s : State) : State := { takeRequest rest s with cpcnt := n }

section Access
variable {s : State} {v : Word} {rest : List PortEvent}

/-- `LDCP` is one step, for a point the table has. -/
theorem step_writeCp {j : Nat} {pos r g b : Byte} (hb : s.busy = false) (hf : s.fault = false)
    (hh : s.host = writeCp j pos r g b :: rest) (hj : j < s.params.cpmax) :
    step s = .next (withPoint j ⟨pos, r, g, b⟩ rest s) := by
  have hcpmax := s.params.cpmax_le
  have haddr : (targetAddr (.cp j)).toNat = 0x040 + j := by rw [targetAddr, BitVec.toNat_ofNat]; omega
  have hcmd : targetAddr (.cp j) ≠ 0x000 := fun h => by rw [h] at haddr; change 0 = _ at haddr; omega
  refine step_write_of_some hb hf hh hcmd (addressMap_of_isAt (t := .cp j) ⟨haddr, hj⟩) ?_
  rw [writeTarget, unpackControlPoint_packControlPoint]
  rfl

theorem step_writeCpcnt (hb : s.busy = false) (hf : s.fault = false)
    (hh : s.host = .write (targetAddr .cpcnt) v :: rest) : step s = .next (withCount (v.setWidth 8) rest s) :=
  step_write_of_some hb hf hh (by decide) (addressMap_of_isAt (t := .cpcnt) rfl) rfl

end Access

theorem run_succ_of_step {M : Host.Core} {s t : M.State} {k : Nat} (h : M.step s = .next t) :
    M.run (k + 1) s = M.run k t := by
  rw [Host.Core.run, h]

/-! ### A list of two control points -/

section Pair
variable {s : State} {A B : Colour}

theorem gradientOk_of_pair (hn : s.cpcnt = 2) (hpos : (cpAt s.cp 0).pos.toNat < (cpAt s.cp 1).pos.toNat) :
    GradientOk s := by
  have hcount : s.cpcnt.toNat = 2 := congrArg BitVec.toNat hn
  refine ⟨by omega, hcount ▸ s.params.two_le_cpmax, fun j h1 hj => ?_⟩
  obtain rfl : j = 1 := by omega
  exact hpos

/-- Between points at 0 and 255 the position is the weight of 255 (40_palette_build.md R101). -/
theorem decodeGradient_of_pair (hn : s.cpcnt = 2) (h0 : cpAt s.cp 0 = ⟨0, A⟩) (h1 : cpAt s.cp 1 = ⟨255, B⟩) {i : Nat}
    (hi : i < 255) : decodeGradient s.cp s.cpcnt.toNat i = lerpC A B i 255 := by
  have hp0 : (cpAt s.cp 0).pos.toNat = 0 := by rw [h0]; rfl
  have hp1 : (cpAt s.cp 1).pos.toNat = 255 := by rw [h1]; rfl
  have hcount : s.cpcnt.toNat = 2 := congrArg BitVec.toNat hn
  have hok := gradientOk_of_pair hn (by omega)
  rw [decodeGradient_between hok (j := 0) (by omega) (by omega) (hp1.symm ▸ hi), hp0, hp1, h0, h1, Nat.sub_zero]

/-- `PBUILD` on such a list makes entry `k` the blend at `16*k` (R103). -/
theorem effectOf_pbuild_of_pair (hn : s.cpcnt = 2) (h0 : cpAt s.cp 0 = ⟨0, A⟩) (h1 : cpAt s.cp 1 = ⟨255, B⟩)
    {k : Nat} (hk : k < 16) : (effectOf .pbuild s).lut[k]? = some (lerpC A B (16 * k) 255) :=
  (getElem?_range_map (fun k => decodeGradient s.cp s.cpcnt.toNat (16 * k)) hk).trans
    (congrArg some (decodeGradient_of_pair hn h0 h1 (by omega)))

end Pair

/-! ### `RAMP` -/

section Ramp
variable {s : State} {A B : Colour}

/-- The block when `RAMP` has written its list of two points and comes to its `PBUILD`. -/
def rampList (A B : Colour) (s : State) : State :=
  { takeRequest [writeCmd .pbuild] s with cp := (s.cp.set 0 ⟨0, A⟩).set 1 ⟨255, B⟩, cpcnt := 2 }

theorem cpAt_rampList_zero (hinv : Inv s) : cpAt (rampList A B s).cp 0 = ⟨0, A⟩ := by
  obtain ⟨-, hcp, -⟩ := (memory_wf_iff s).mp hinv.memory
  have hcpmax := s.params.two_le_cpmax
  exact (getD_set_other _ _ _ (by decide)).trans (getD_set_same _ _ (by omega))

theorem cpAt_rampList_one (hinv : Inv s) : cpAt (rampList A B s).cp 1 = ⟨255, B⟩ := by
  obtain ⟨-, hcp, -⟩ := (memory_wf_iff s).mp hinv.memory
  have hcpmax := s.params.two_le_cpmax
  exact getD_set_same _ _ (by rw [List.length_set]; omega)

/-- The first three accesses write the list. -/
theorem run_rampList {x y : Word} {r0 g0 b0 r1 g1 b1 : Byte} (k : Nat) (hb : s.busy = false) (hf : s.fault = false)
    (hh : s.host = Stmt.expand x y (.ramp r0 g0 b0 r1 g1 b1)) :
    core.run (k + 3) s = core.run k (rampList ⟨r0, g0, b0⟩ ⟨r1, g1, b1⟩ s) := by
  have hcpmax := s.params.two_le_cpmax
  calc core.run (k + 3) s
      _ = core.run (k + 2) _ := run_succ_of_step (step_writeCp hb hf hh (by omega))
      _ = core.run (k + 1) _ := run_succ_of_step (step_writeCp (j := 1) hb hf rfl hcpmax)
      _ = core.run k _ := run_succ_of_step (step_writeCpcnt hb hf rfl)

/-- The fourth builds the palette: the list is well-formed, and `PBUILD` draws nothing. -/
theorem step_rampList (hinv : Inv s) (hb : s.busy = false) (hf : s.fault = false) :
    step (rampList A B s) = .next (effectOf .pbuild (takeRequest [] (rampList A B s))) := by
  have hok : GradientOk (takeRequest [] (rampList A B s)) := by
    refine gradientOk_of_pair rfl ?_
    rw [takeRequest_cp, cpAt_rampList_zero hinv, cpAt_rampList_one hinv]
    exact show 0 < 255 by decide
  exact (step_command (s := rampList A B s) rfl hb (decode_encode .pbuild)).trans
    (exec_of_answered (i := .pbuild) (s := takeRequest [] (rampList A B s)) hf hok (answersAll_zero _))

end Ramp

/-- Settles O58: three accesses write a list of two points at 0 and 255, from which the fourth builds the palette. -/
theorem rampBuildsATwoColourPalette : Obligations.RampBuildsATwoColourPalette := by
  intro s x y r0 g0 b0 r1 g1 b1 hinv hb hf hh
  refine ⟨_, (run_rampList 1 hb hf hh).trans (run_succ_of_step (step_rampList hinv hb hf)), ?_, rfl, fun k hk => ?_⟩
  · simp [goodEnd, effectOf_frame, rampList, hb, hf]
  · exact effectOf_pbuild_of_pair rfl (cpAt_rampList_zero hinv) (cpAt_rampList_one hinv) hk

end Sys2Proof.Machine
end

section
/-! The palette table commands: NOP, PBUILD, GQRY and PBLEND4, and the gradient PBUILD and GQRY decode
(40_palette_build.md). -/

namespace Sys2Proof.Machine

open Sys2Proof.Safety

/-! ### NOP (R100) -/

/-- A frozen block executes nothing, and on a live one the effect is the identity. -/
theorem exec_nop (s : State) : exec .nop s = .next s := by
  cases hf : s.fault
  case true => exact exec_of_fault hf
  case false => exact exec_of_answered hf trivial (answersAll_zero _)

/-- Settles O26, in a frozen block as in a live one. -/
theorem nopHasNoEffect : Obligations.NopHasNoEffect := ⟨rfl, exec_nop⟩

/-! ### The bracket of an index (R101) -/

section Gradient
variable {s : State} {i : Nat}

/-- An index from the first point up to a later one has a pair of neighbours around it. -/
theorem exists_bracketing_pair {n : Nat} (hfirst : (cpAt s.cp 0).pos.toNat ≤ i) (hlast : i < (cpAt s.cp n).pos.toNat) :
    ∃ j, j < n ∧ (cpAt s.cp j).pos.toNat ≤ i ∧ i < (cpAt s.cp (j + 1)).pos.toNat := by
  induction n with
  | zero => omega
  | succ n ih =>
    by_cases hn : i < (cpAt s.cp n).pos.toNat
    · obtain ⟨j, hj, hpair⟩ := ih hn
      exact ⟨j, by omega, hpair⟩
    · exact ⟨n, Nat.lt_succ_self n, by omega, hlast⟩

/-- "exists and is unique: positions strictly increase" (R101): `bracket` finds whatever pair there is. -/
theorem existsUnique_bracketing_pair (hok : GradientOk s) (hfirst : (cpAt s.cp 0).pos.toNat ≤ i)
    (hlast : i < (cpAt s.cp (s.cpcnt.toNat - 1)).pos.toNat) :
    ∃! j, j + 1 < s.cpcnt.toNat ∧ (cpAt s.cp j).pos.toNat ≤ i ∧ i < (cpAt s.cp (j + 1)).pos.toNat := by
  obtain ⟨j, hj, hle, hlt⟩ := exists_bracketing_pair hfirst hlast
  refine ⟨j, ⟨by omega, hle, hlt⟩, fun k ⟨hk, hkle, hklt⟩ => ?_⟩
  exact (bracket_eq hok hk hkle hklt).symm.trans (bracket_eq hok (by omega) hle hlt)

/-- Between two neighbours each channel is the blend of theirs by the distances (R101). -/
theorem chan_decodeGradient_between (hok : GradientOk s) {j : Nat} (ch : Channel) (hj : j + 1 < s.cpcnt.toNat)
    (hle : (cpAt s.cp j).pos.toNat ≤ i) (hlt : i < (cpAt s.cp (j + 1)).pos.toNat) :
    chan ch (decodeGradient s.cp s.cpcnt.toNat i) =
      (chan ch (cpAt s.cp j).rgb * ((cpAt s.cp (j + 1)).pos.toNat - i)
        + chan ch (cpAt s.cp (j + 1)).rgb * (i - (cpAt s.cp j).pos.toNat))
        / ((cpAt s.cp (j + 1)).pos.toNat - (cpAt s.cp j).pos.toNat) := by
  rw [decodeGradient_between hok hj hle hlt, chan_lerpC ch _ _ (by omega) (by omega), Nat.sub_sub_sub_cancel_right hle]

end Gradient

/-- Settles O27: the clauses are the cases of `Decode`, each in closed form on a well-formed list. -/
theorem gradientDecode : Obligations.GradientDecode := by
  intro s i hok _
  refine ⟨decodeGradient_first, decodeGradient_last hok, fun j hj hi => ?anchor, existsUnique_bracketing_pair hok,
    fun j ch => chan_decodeGradient_between hok ch⟩
  case anchor => rw [hi, decodeGradient_anchor hok hj]

/-! ### PBUILD and GQRY (R102 to R104) -/

section ListCommands
variable {s : State}

/-- The two commands that read the control-point list begin with its check (R102). -/
theorem checkOf_of_list_command {i : Instr} (hi : i = .pbuild ∨ ∃ pos, i = .gqry pos) : checkOf i = checkCP := by
  obtain rfl | ⟨pos, rfl⟩ := hi <;> rfl

/-- On a list that is not well-formed they take one of the two list faults. -/
theorem exec_of_bad_list {i : Instr} (hi : checkOf i = checkCP) (hf : s.fault = false) (hbad : ¬ GradientOk s) :
    ∃ code info, (code = 2 ∨ code = 3) ∧ exec i s = .next (faulted code info (encode i) s) := by
  obtain ⟨code, info, hcode, hcheck⟩ := checkCP_of_not_ok hbad
  refine ⟨faultNumber code, _, ?_, exec_of_check_some hf (hi ▸ hcheck)⟩
  exact hcode.imp (congrArg faultNumber) (congrArg faultNumber)

theorem exec_pbuild (hf : s.fault = false) (hok : GradientOk s) : exec .pbuild s = .next (effectOf .pbuild s) :=
  exec_of_answered hf hok (answersAll_zero _)

theorem exec_gqry {pos : Byte} (hf : s.fault = false) (hok : GradientOk s) :
    exec (.gqry pos) s = .next { s with result := decodeGradient s.cp s.cpcnt.toNat pos.toNat } :=
  exec_of_answered hf hok (answersAll_zero _)

/-- Entry `k` is the gradient at `16*k` (R103). -/
theorem effectOf_pbuild_lut_getElem? {k : Nat} (hk : k < 16) :
    (effectOf .pbuild s).lut[k]? = some (decodeGradient s.cp s.cpcnt.toNat (16 * k)) :=
  getElem?_range_map (fun k => decodeGradient s.cp s.cpcnt.toNat (16 * k)) hk

/-- `PBUILD` leaves the list it reads. -/
theorem gradientOk_effectOf_pbuild : GradientOk (effectOf .pbuild s) ↔ GradientOk s := Iff.rfl

/-- So it builds the same palette from it again. -/
theorem effectOf_pbuild_effectOf_pbuild : effectOf .pbuild (effectOf .pbuild s) = effectOf .pbuild s := rfl

theorem encode_gqry (pos : Byte) : encode (.gqry pos) = 0x02000000 ||| pos.setWidth 32 :=
  packCommand_eq_or 0x02 0 pos

end ListCommands

/-- Settles O15: both commands report what `CheckCP` finds, and with nothing found they have their effect. -/
theorem gradientListCheck : Obligations.GradientListCheck := by
  intro s i hf hi
  have hcheck := checkOf_of_list_command hi
  refine ⟨fun hcount => ?count, fun j h2 hmax h1 hj horder hbefore => ?order, fun hok => ?passes⟩
  case count => exact exec_of_check_some hf (hcheck ▸ checkCP_of_count hcount)
  case order => exact exec_of_check_some hf (hcheck ▸ checkCP_of_order h2 hmax h1 hj horder hbefore)
  case passes =>
    obtain rfl | ⟨pos, rfl⟩ := hi
    · exact ⟨_, exec_pbuild hf hok, hf⟩
    · exact ⟨_, exec_gqry hf hok, hf⟩

/-- Settles O28: entry `k` is the anchor the sampler reads at `16*k`. -/
theorem pbuildFillsThePalette : Obligations.PbuildFillsThePalette := by
  refine ⟨rfl, fun s hf hok => ⟨_, exec_pbuild hf hok, rfl, rfl, rfl, fun k hk => ?_⟩, fun s => exec_of_bad_list rfl⟩
  have hentry := effectOf_pbuild_lut_getElem? (s := s) hk
  exact ⟨hentry, (sampleLut_at_entry _ hk).trans (lutAt_of_getElem? hentry)⟩

/-- Settles O29: the word is the opcode over the position, and `CheckCP` decides between answer and fault. -/
theorem gqryAnswersTheGradient : Obligations.GqryAnswersTheGradient :=
  ⟨encode_gqry, fun _ _ => exec_gqry, fun _ pos hf hbad => encode_gqry pos ▸ exec_of_bad_list rfl hf hbad⟩

/-- Settles O30: `PBUILD` leaves the control points and their count, all that a second `PBUILD` or a `GQRY` reads. -/
theorem gradientDecodeIsIdempotent : Obligations.GradientDecodeIsIdempotent := by
  intro s t pos hf hok ht
  obtain rfl : effectOf .pbuild s = t := Host.Outcome.next.inj ((exec_pbuild hf hok).symm.trans ht)
  have hok' := gradientOk_effectOf_pbuild.mpr hok
  have hagain : exec .pbuild (effectOf .pbuild s) = .next (effectOf .pbuild s) :=
    (exec_pbuild (s := effectOf .pbuild s) hf hok').trans (congrArg _ effectOf_pbuild_effectOf_pbuild)
  exact ⟨hagain, _, _, exec_gqry hf hok, exec_gqry hf hok', rfl⟩

/-! ### PBLEND4 (R105) -/

section Blend
variable (lut : List Colour)

/-- An anchor is not written. -/
theorem blendEntry_anchor (tail : Blend4Tail) (m : Nat) : blendEntry tail lut (4 * m) = lutAt lut (4 * m) := by
  unfold blendEntry; dsimp only
  rw [if_pos (Nat.mul_mod_right 4 m)]

/-- A slot between two anchors is their blend. -/
theorem blendEntry_between (tail : Blend4Tail) {m t : Nat} (hm : m < 3) (ht : 1 ≤ t) (ht' : t < 4) :
    blendEntry tail lut (4 * m + t) = lerpC (lutAt lut (4 * m)) (lutAt lut (4 * m + 4)) (blendWeight t) 255 := by
  have hdiv : (4 * m + t) / 4 = m := by omega
  have hmod : (4 * m + t) % 4 = t := by omega
  unfold blendEntry; dsimp only
  rw [hdiv, hmod, if_neg (by omega), if_pos hm, Nat.mul_succ]

/-- With `WRAP` the last three slots blend back to the first anchor. -/
theorem blendEntry_wrap {t : Nat} (ht : 1 ≤ t) (ht' : t < 4) :
    blendEntry .wrap lut (12 + t) = lerpC (lutAt lut 12) (lutAt lut 0) (blendWeight t) 255 := by
  have hmod : (12 + t) % 4 = t := by omega
  rw [blendEntry, hmod, if_neg (by omega), if_neg (by omega)]

/-- With `HOLD` they repeat the last anchor. -/
theorem blendEntry_hold {k : Nat} (hk : 13 ≤ k) (hk' : k ≤ 15) : blendEntry .hold lut k = lutAt lut 12 := by
  rw [blendEntry, if_neg (by omega), if_neg (by omega)]

end Blend

section BlendedPalette
variable {s : State} {j k : Nat}

/-- Entry `k` of the blended palette. -/
theorem effectOf_pblend4_lut_getElem? {c : Colour} (hk : k < 16) (h : blendEntry s.params.blend4Tail s.lut k = c) :
    (effectOf .pblend4 s).lut[k]? = some c :=
  (getElem?_range_map (blendEntry s.params.blend4Tail s.lut) hk).trans (congrArg some h)

/-- An entry that takes the colour of an old one. -/
theorem effectOf_pblend4_lut_copies (hlen : s.lut.length = 16) (hj : j < 16) (hk : k < 16)
    (h : blendEntry s.params.blend4Tail s.lut k = lutAt s.lut j) : (effectOf .pblend4 s).lut[k]? = s.lut[j]? := by
  rw [effectOf_pblend4_lut_getElem? hk h, getElem?_of_lutAt (by omega)]

end BlendedPalette

/-- Settles O31: every clause is a case of `blendEntry`; the blend at 255 of 255 is the second colour. -/
theorem pblend4BlendsTheAnchors : Obligations.Pblend4BlendsTheAnchors := by
  refine ⟨rfl, fun s hf hlen hanchors => ?_, fun s => exec_pblend4_of_no_anchor⟩
  refine ⟨_, exec_of_answered (i := .pblend4) hf hanchors (answersAll_zero _), rfl, rfl, rfl, fun m hm => ?anchors,
    fun m hm => ?between, fun htail => ?wrap, fun htail k hk hk' => ?hold⟩
  case anchors => exact effectOf_pblend4_lut_copies hlen (by omega) (by omega) (blendEntry_anchor ..)
  case between =>
    have hblend : ∀ t, 1 ≤ t → t < 4 → blendEntry s.params.blend4Tail s.lut (4 * m + t) =
        lerpC (lutAt s.lut (4 * m)) (lutAt s.lut (4 * m + 4)) (blendWeight t) 255 :=
      fun t => blendEntry_between s.lut _ hm
    refine ⟨effectOf_pblend4_lut_getElem? (by omega) (hblend 1 (by decide) (by decide)),
      effectOf_pblend4_lut_getElem? (by omega) (hblend 2 (by decide) (by decide)), ?_⟩
    exact effectOf_pblend4_lut_copies hlen (by omega) (by omega)
      ((hblend 3 (by decide) (by decide)).trans (lerpC_full _ _ (by decide)))
  case wrap =>
    have hblend : ∀ t, 1 ≤ t → t < 4 → blendEntry s.params.blend4Tail s.lut (12 + t) =
        lerpC (lutAt s.lut 12) (lutAt s.lut 0) (blendWeight t) 255 :=
      fun t => htail ▸ blendEntry_wrap s.lut
    refine ⟨effectOf_pblend4_lut_getElem? (by decide) (hblend 1 (by decide) (by decide)),
      effectOf_pblend4_lut_getElem? (by decide) (hblend 2 (by decide) (by decide)), ?_⟩
    exact effectOf_pblend4_lut_copies hlen (by decide) (by decide)
      ((hblend 3 (by decide) (by decide)).trans (lerpC_full _ _ (by decide)))
  case hold => exact effectOf_pblend4_lut_copies hlen (by decide) (by omega) (htail ▸ blendEntry_hold _ hk hk')

end Sys2Proof.Machine
end

section
/-! The palette sampler and the stateless render commands: the palette check, SAMPLE, SAMPLEB, RSWEEP, RLEADER, RDIST
and RCANDLE (41_sampler.md). -/

namespace Sys2Proof.Machine

open Sys2Proof.Safety

/-! ### The palette check (R120) -/

/-- Settles O16: `CheckPal` stands before every other check, and `PBLEND4` has its own. -/
theorem paletteCheck : Obligations.PaletteCheck := by
  refine fun s i hf => ⟨exec_of_no_palette hf, fun hi hanchor => ?pblend4⟩
  case pblend4 =>
    subst hi
    exact exec_pblend4_of_no_anchor hf hanchor

/-! ### The sample (R121) -/

section BlendBounds
variable {w D : Nat} (ch : Channel) (A B : Colour)

theorem min_le_chan_lerpC (hw : w ≤ D) (hD : 1 ≤ D) : min (chan ch A) (chan ch B) ≤ chan ch (lerpC A B w D) := by
  cases ch <;> exact min_le_lerp _ _ hw hD

theorem chan_lerpC_le_max (hw : w ≤ D) (hD : 1 ≤ D) : chan ch (lerpC A B w D) ≤ max (chan ch A) (chan ch B) := by
  cases ch <;> exact lerp_le_max _ _ hw hD

end BlendBounds

/-- Settles O33: a sample is a blend of two entries at a weight below 16, so it is bounded by them. -/
theorem sampleInterpolates : Obligations.SampleInterpolates := by
  intro lut i ch
  have hw : i.toNat % 16 ≤ 16 := (Nat.mod_lt _ (by decide)).le
  have hD : 1 ≤ 16 := by decide
  exact ⟨chan_lerpC ch _ _ hw hD, sampleLut_anchor lut, min_le_chan_lerpC ch _ _ hw hD, chan_lerpC_le_max ch _ _ hw hD⟩

/-! ### The sample of a blended palette (R105, R121) -/

/-- A command that leaves `FAULT` at 0 has passed its checks. -/
theorem checksPass_of_no_fault {i : Instr} {s t : State} (h : exec i s = .next t) (ht : t.fault = false) :
    checksPass i s := by
  rcases exec_cases h with ⟨hf, rfl⟩ | ⟨-, code, info, -, rfl⟩ | ⟨-, hcheck, -, -⟩ | ⟨-, hcheck, -, -⟩
  · simp [hf] at ht
  · simp at ht
  · exact checkOf_eq_none.mp hcheck
  · exact checkOf_eq_none.mp hcheck

/-- Settles O32: `PBLEND4` leaves entry `4*m` in place, and index `64*m` is the anchor of that entry. -/
theorem blendedPaletteAnchorsSampleExactly : Obligations.BlendedPaletteAnchorsSampleExactly := by
  intro s t hf ht hlive m hm
  have hblend : exec .pblend4 s = .next (effectOf .pblend4 s) :=
    exec_of_answered hf (checksPass_of_no_fault ht hlive) (answersAll_zero _)
  obtain rfl : effectOf .pblend4 s = t := Host.Outcome.next.inj (hblend.symm.trans ht)
  have hentry := effectOf_pblend4_lut_getElem? (s := s) (k := 4 * m) (by omega) (blendEntry_anchor ..)
  calc sampleLut (effectOf .pblend4 s).lut (BitVec.ofNat 8 (64 * m))
      = sampleLut (effectOf .pblend4 s).lut (BitVec.ofNat 8 (16 * (4 * m))) := by rw [← Nat.mul_assoc]
    _ = lutAt (effectOf .pblend4 s).lut (4 * m) := sampleLut_at_entry _ (by omega)
    _ = lutAt s.lut (4 * m) := lutAt_of_getElem? hentry

/-! ### What each command does with a valid palette -/

section ValidPalette
variable {s : State}

theorem exec_sample {idx : Byte} (hf : s.fault = false) (hl : s.lutv = 0xFFFF) :
    exec (.sample idx) s = .next { s with result := sampleLut s.lut idx } :=
  exec_of_answered hf hl (answersAll_zero _)

theorem exec_sampleb {idx bri : Byte} (hf : s.fault = false) (hl : s.lutv = 0xFFFF) :
    exec (.sampleb idx bri) s = .next { s with result := scaleC (sampleLut s.lut idx) bri.toNat } :=
  exec_of_answered hf hl (answersAll_zero _)

theorem exec_rleader (hf : s.fault = false) (hl : s.lutv = 0xFFFF) :
    exec .rleader s =
      .next { s with pix := paint s fun i => if i = 0 then sampleAt s 40 else sampleAt s (2 * i) } :=
  exec_of_answered hf hl (answersAll_zero _)

theorem exec_rdist (hf : s.fault = false) (hl : s.lutv = 0xFFFF) :
    exec .rdist s = .next { s with pix := paint s fun i => sampleAt s (255 / s.params.n * i) } :=
  exec_of_answered hf hl (answersAll_zero _)

theorem exec_rcandle (hf : s.fault = false) (hl : s.lutv = 0xFFFF) (hsum : beatAt s 0 + beatAt s 1 ≤ 255)
    (hd : answersAll s.source s.params.n = true) :
    exec .rcandle s =
      .next { s with pix := paint s (candlePixel s), source := afterDraws s.source (candleBounds s) } := by
  have hbounds : (drawBounds .rcandle s).length = s.params.n := List.length_replicate
  exact exec_of_answered hf ⟨hl, hsum⟩ (hbounds ▸ hd)

/-- A painted pixel that is a sample at some offset, with the index reduced (R123). -/
theorem paint_getElem?_of_sampleAt {f : Nat → Colour} {i off : Nat} (hi : i < s.params.n) (h : f i = sampleAt s off) :
    (paint s f)[i]? = some (sampleLut s.lut (BitVec.ofNat 8 ((s.gindex.toNat + off) % 256))) := by
  rw [paint_getElem? hi, h, sampleAt_eq]

end ValidPalette

/-! ### SAMPLE and SAMPLEB (R122, R124) -/

theorem encode_sample (idx : Byte) : encode (.sample idx) = 0x10000000 ||| idx.setWidth 32 :=
  packCommand_eq_or 0x10 0 idx

theorem encode_sampleb (idx bri : Byte) :
    encode (.sampleb idx bri) = 0x11000000 ||| (bri.setWidth 32 <<< 8) ||| idx.setWidth 32 :=
  packCommand_eq_or 0x11 bri idx

theorem scaleC_full (C : Colour) : scaleC C 255 = C := by simp only [scaleC, scale_full]

theorem scaleC_zero (C : Colour) : scaleC C 0 = .black := by simp only [scaleC, scale_zero]

/-- Settles O34: the word is the opcode over the index, and `CheckPal` decides between answer and fault. -/
theorem sampleAnswersTheSample : Obligations.SampleAnswersTheSample :=
  ⟨encode_sample, fun _ _ => exec_sample, fun _ idx hf hl => encode_sample idx ▸ exec_of_no_palette hf rfl hl⟩

/-- Settles O35: the result is the sample scaled, which at 255 is the sample and at 0 is black. -/
theorem samplebScalesTheSample : Obligations.SamplebScalesTheSample := by
  refine ⟨encode_sampleb, fun s idx bri hf hl => ⟨_, exec_sampleb hf hl, rfl, fun ch => ?scaled, fun hbri => ?full,
    fun hbri => ?zero⟩, fun s idx bri hf hl => encode_sampleb idx bri ▸ exec_of_no_palette hf rfl hl⟩
  case scaled => exact chan_scaleC ch _ (by omega)
  case full => rw [hbri, exec_sample hf hl, show (255 : Byte).toNat = 255 from rfl, scaleC_full]
  case zero => exact hbri ▸ scaleC_zero _

/-! ### The stateless renders (R125 to R128) -/

/-- Settles O36: the painted samples read `LUT` and `GINDEX` and no old pixel. -/
theorem rsweepPaintsTheSweep : Obligations.RsweepPaintsTheSweep := by
  refine ⟨rfl, fun s hf hl => ⟨_, exec_rsweep hf hl, rfl, paint_length _ _, fun i hi => ?pixel, fun old => ?oldBuffer⟩,
    fun s hf hl => exec_of_no_palette hf rfl hl⟩
  case pixel => exact paint_getElem?_of_sampleAt hi rfl
  case oldBuffer => exact exec_rsweep (s := { s with pix := old }) hf hl

/-- Settles O37: pixel 0 takes the branch of the leader, and `N` is at least 1. -/
theorem rleaderPaintsTheLeader : Obligations.RleaderPaintsTheLeader := by
  refine ⟨rfl, fun s hf hl => ⟨_, exec_rleader hf hl, rfl, paint_length _ _, ?leader, fun i h1 hi => ?follower⟩,
    fun s hf hl => exec_of_no_palette hf rfl hl⟩
  case leader => exact paint_getElem?_of_sampleAt s.params.n_pos (if_pos rfl)
  case follower => exact paint_getElem?_of_sampleAt hi (if_neg (by omega))

/-- Settles O38: above 255 pixels the spread is 0, and with it every offset. -/
theorem rdistSpreadsThePalette : Obligations.RdistSpreadsThePalette := by
  refine ⟨rfl, fun s hf hl => ⟨_, exec_rdist hf hl, rfl, paint_length _ _, fun i hi => ⟨?spread, fun hn => ?constant⟩⟩,
    fun s hf hl => exec_of_no_palette hf rfl hl⟩
  case spread => exact paint_getElem?_of_sampleAt hi rfl
  case constant => rw [paint_getElem? hi, Nat.div_eq_of_lt hn, Nat.zero_mul, sampleAt_zero]

/-- Settles O39: pixel `i` is the candle's pixel of draw `i`, and both checks stand before the first draw. -/
theorem rcandleFlickers : Obligations.RcandleFlickers := by
  refine ⟨rfl, fun s hf hl hsum hd => ⟨_, exec_rcandle hf hl hsum hd, rfl, rfl, ?answers, rfl, paint_length _ _,
    fun i ch hi => ⟨_, paint_getElem? hi, chan_candlePixel s i ch hsum⟩⟩,
    fun s hf hl => exec_of_no_palette hf rfl hl,
    fun s hf hl hsum => exec_of_check_some (i := .rcandle) hf (checkCandle_of_over hl hsum)⟩
  case answers => exact congrArg (List.drop · _) List.length_replicate

end Sys2Proof.Machine
end

section
/-! The overlays of 42_overlays.md: the fade, the glitter step and the commands that make it, and the renders that read
the faded buffer. -/

namespace Sys2Proof.Machine

open Sys2Proof.Safety

/-! ### The glitter history over many steps (R143) -/

/-- A later frame pushes its new slot onto the history and drops the oldest slot. What it pushes, and everything else it
leaves but pixels, depends neither on the history nor on the pixels it finds. -/
theorem glitterFrame_withHistory {s : State} {step : Nat × Word} (hframe : step.2 ≠ 0) (old : List (Option Half))
    (pix : List Colour) :
    ∃ lit, glitterFrame { s with glh := old, pix := pix } step =
      { glitterFrame s step with glh := newSlot step.1 { s with frame := step.2 } :: old.take 17, pix := lit } := by
  have hhist : glitterHistory { s with glh := old, pix := pix, frame := step.2 } = old := glitterHistory_later hframe
  have hglh := glitterStep_glh step.1 { s with glh := old, pix := pix, frame := step.2 }
  rw [hhist] at hglh
  exact ⟨_, congrArg (fun glh => { glitterFrame { s with glh := old, pix := pix } step with glh := glh }) hglh⟩

/-- Dropping the oldest slots at every step is dropping them at the end. -/
theorem take_append_cons_take {α : Type} (new old : List α) (x : α) (k : Nat) :
    (new ++ x :: old.take k).take (k + 1) = (new ++ [x] ++ old).take (k + 1) := by
  rw [List.append_assoc, List.singleton_append, List.take_append, List.take_append, ← List.take_succ_cons,
    List.take_take, Nat.min_eq_left (Nat.sub_le ..)]

/-- The history after a list of later frames: their new slots, the latest first, then the old history, cut to 18 slots. -/
theorem foldl_glitterFrame_glh (s : State) (steps : List (Nat × Word)) (hframe : ∀ x ∈ steps, x.2 ≠ 0) :
    ∃ new : List (Option Half), new.length = steps.length ∧ ∀ old pix, old.length = 18 →
      (steps.foldl glitterFrame { s with glh := old, pix := pix }).glh = (new ++ old).take 18 := by
  induction steps generalizing s with
  | nil => exact ⟨[], rfl, fun old pix hold => (List.take_of_length_le hold.le).symm⟩
  | cons step steps ih =>
    obtain ⟨new, hlen, hnew⟩ := ih (glitterFrame s step) fun x hx => hframe x (List.mem_cons_of_mem _ hx)
    refine ⟨new ++ [newSlot step.1 { s with frame := step.2 }], by simp [hlen], fun old pix hold => ?_⟩
    obtain ⟨lit, hlit⟩ := glitterFrame_withHistory (hframe step List.mem_cons_self) old pix
    rw [List.foldl_cons, hlit, hnew _ lit (by simp [hold]), take_append_cons_take]

/-- Settles O46: eighteen new slots fill the history, and seventeen leave room for the old slot 0 alone. -/
theorem glitterForgetsAfterEighteenSteps : Obligations.GlitterForgetsAfterEighteenSteps := by
  refine ⟨fun s old steps hs hold hlen hframe => ?forgets, fun s steps hs hlen hframe => ?oldest,
    fun s chance hf hd => exec_of_answered hf trivial hd,
    fun s hf hl hd => ⟨_, exec_rsweep hf hl, exec_of_answered hf hl hd⟩⟩
  case forgets =>
    obtain ⟨new, hnew, hglh⟩ := foldl_glitterFrame_glh s steps hframe
    have hfull : ∀ h : List (Option Half), (new ++ h).take 18 = new := fun h => List.take_left' (hnew.trans hlen)
    calc (steps.foldl glitterFrame s).glh = new := (hglh s.glh s.pix hs).trans (hfull _)
      _ = (steps.foldl glitterFrame { s with glh := old }).glh := ((hglh old s.pix hold).trans (hfull _)).symm
  case oldest =>
    obtain ⟨new, hnew, hglh⟩ := foldl_glitterFrame_glh s steps hframe
    rw [hlen] at hnew
    calc (steps.foldl glitterFrame s).glh[17]? = ((new ++ s.glh).take 18)[17]? :=
          congrArg (·[17]?) (hglh s.glh s.pix hs)
      _ = (new ++ s.glh)[17]? := List.getElem?_take_of_lt (by decide)
      _ = s.glh[0]? := by rw [List.getElem?_append_right hnew.le, hnew]

/-! ### FADE (R141, R142) -/

theorem encode_fade (amt : Byte) : encode (.fade amt) = 0x30000000 ||| amt.setWidth 32 :=
  packCommand_eq_or 0x30 0 amt

theorem exec_fade {amt : Byte} {s : State} (hf : s.fault = false) :
    exec (.fade amt) s = .next { s with pix := fadeAll amt.toNat s.pix } :=
  exec_of_answered hf trivial (answersAll_zero _)

/-- "a nonzero channel strictly shrinks whenever `amt >= 1`" (R142). -/
theorem fade_quotient_lt {c amt : Nat} (hamt : 1 ≤ amt) (hc : c ≠ 0) : c * (255 - amt) / 255 < c := by
  refine Nat.div_lt_of_lt_mul ?_
  rw [Nat.mul_comm 255]
  exact Nat.mul_lt_mul_of_pos_left (by omega) (by omega)

theorem fadeAll_zero (pix : List Colour) : fadeAll 0 pix = pix := by
  simp [fadeAll, scaleC_full]

theorem eq_black_of_mem_fadeAll_255 {pix : List Colour} {c : Colour} (h : c ∈ fadeAll 255 pix) : c = .black := by
  obtain ⟨d, -, rfl⟩ := List.mem_map.mp h
  exact scaleC_zero d

/-- Every fade takes at least 1 from a nonzero channel, so `k` of them leave at most `255 - k`. -/
theorem chan_iterate_fadeAll_le {amt : Nat} (hamt : 1 ≤ amt) (ch : Channel) (pix : List Colour) (k : Nat) {c : Colour}
    (h : c ∈ (fadeAll amt)^[k] pix) : chan ch c ≤ 255 - k := by
  induction k generalizing c with
  | zero => exact Nat.le_of_lt_succ (chan_lt ch c)
  | succ k ih =>
    rw [Function.iterate_succ_apply'] at h
    obtain ⟨d, hd, rfl⟩ := List.mem_map.mp h
    have hle := ih hd
    rw [chan_scaleC ch d (by omega)]
    by_cases hzero : chan ch d = 0
    · simp [hzero]
    · have := fade_quotient_lt hamt hzero
      omega

/-- Settles O40: a fade is one multiplication and division per channel, and 255 of them leave at most `255 - 255`. -/
theorem fadeShrinksEveryChannel : Obligations.FadeShrinksEveryChannel := by
  refine ⟨encode_fade, fun s amt hf => ⟨_, exec_fade hf, rfl, fadeAll_length _ _, fun i c ch hi => ?pixel,
    fun hamt => ?nothing, fun hamt c hc => ?black⟩, fun amt pix hamt c hc => colour_ext_chan fun ch => ?repeated⟩
  case pixel =>
    refine ⟨scaleC c (255 - amt.toNat), by rw [fadeAll_getElem?, hi]; rfl, ?_⟩
    rw [chan_scaleC ch c (by omega)]
    exact ⟨rfl, scale_quotient_le (by omega), fade_quotient_lt⟩
  case nothing => rw [hamt, show (0 : Byte).toNat = 0 from rfl, fadeAll_zero]
  case black => exact eq_black_of_mem_fadeAll_255 (hamt ▸ hc)
  case repeated =>
    have hblack : chan ch .black = 0 := by cases ch <;> rfl
    have hle := chan_iterate_fadeAll_le hamt ch pix 255 hc
    omega

/-! ### GLITTER (R144) -/

theorem encode_glitter (chance : Byte) : encode (.glitter chance) = 0x31000000 ||| chance.setWidth 32 :=
  packCommand_eq_or 0x31 0 chance

theorem newSlot_eq (chance : Nat) (s : State) :
    newSlot chance s =
      if draw s.source 0 256 < chance then some (BitVec.ofNat 16 (draw s.source 1 s.params.n)) else none := by
  simp [newSlot, sparkles]

theorem glitterBounds_length (chance : Nat) (s : State) :
    (glitterBounds chance s).length = if draw s.source 0 256 < chance then 2 else 1 := by
  rw [glitterBounds_eq]
  split <;> rfl

/-- The draws decide slot 0 only. -/
theorem glitterStep_glh_of_pos (chance : Nat) (s : State) {a : Nat} (ha : 1 ≤ a) :
    (glitterStep chance s).glh[a]? = (glitterAge s).glh[a]? := by
  obtain ⟨b, rfl⟩ := Nat.exists_eq_add_of_le' ha
  rfl

theorem exec_glitter {chance : Byte} {s : State} (hf : s.fault = false)
    (hd : answersAll s.source (if draw s.source 0 256 < chance.toNat then 2 else 1) = true) :
    exec (.glitter chance) s = .next (glitterStep chance.toNat s) := by
  rw [← glitterBounds_length] at hd
  exact exec_of_check_none (i := .glitter chance) hf rfl hd

/-- Settles O41: the step is the aging, whose lights and slots stand in closed form, then slot 0 by the draws. -/
theorem glitterStepOfACommand : Obligations.GlitterStepOfACommand := by
  refine ⟨encode_glitter, fun s chance hinv hf hd => ⟨_, exec_glitter hf hd, rfl, glitterStep_glh_length _ hinv.slots,
    ?slot, ?asked, ?answers, rfl, (glitterStep_pix_length _ s).trans (pix_length_of_inv hinv), fun hframe => ?first,
    fun hframe => ?later⟩⟩
  case slot => rw [glitterStep_glh_zero, newSlot_eq]
  case asked => exact congrArg (s.source.asked ++ ·) (glitterBounds_eq chance.toNat s)
  case answers => exact congrArg (List.drop · s.source.answers) (glitterBounds_length chance.toNat s)
  case first =>
    exact ⟨glitterAge_pix_first hframe, fun a h1 ha =>
      (glitterStep_glh_of_pos _ s h1).trans (glitterAge_glh_first hinv.slots hframe ha)⟩
  case later =>
    have hhist := glitterHistory_later hframe
    exact ⟨fun a ha => hhist ▸ glitterStep_glh_succ _ s ha, fun i ch hi => chan_glitterAge_later hinv hframe ch hi⟩

/-! ### RSWEEPG (R145) -/

theorem exec_rsweepg {s : State} (hf : s.fault = false) (hl : s.lutv = 0xFFFF)
    (hd : answersAll s.source (if draw s.source 0 256 < min (s.frame.toNat / 20) 100 then 2 else 1) = true) :
    exec .rsweepg s = .next (glitterStep (sweepChance s) { s with pix := sweepPix s }) := by
  have hbounds := glitterBounds_length (sweepChance s) s
  exact exec_of_check_none (i := .rsweepg) hf (checkPal_of_valid hl) ((congrArg (answersAll s.source) hbounds).trans hd)

/-- `GLITTER` with the chance of `RSWEEPG` makes, on the swept buffer, the same glitter step. -/
theorem exec_glitter_of_sweep {s : State} (hf : s.fault = false)
    (hd : answersAll s.source (if draw s.source 0 256 < min (s.frame.toNat / 20) 100 then 2 else 1) = true) :
    exec (.glitter (BitVec.ofNat 8 (min (s.frame.toNat / 20) 100))) { s with pix := sweepPix s } =
      .next (glitterStep (sweepChance s) { s with pix := sweepPix s }) := by
  rw [← ofNat_sweepChance_toNat]
  refine exec_glitter (s := { s with pix := sweepPix s }) hf ?_
  rwa [ofNat_sweepChance_toNat]

/-- Settles O42: the sweep leaves the source and `FRAME`, so the glitter step after it is the one of `RSWEEPG`. -/
theorem rsweepgIsSweepThenGlitter : Obligations.RsweepgIsSweepThenGlitter :=
  ⟨rfl, fun _ hf hl hd => ⟨_, _, exec_rsweep hf hl, exec_glitter_of_sweep hf hd, exec_rsweepg hf hl hd, rfl⟩,
    fun _ hf hl => exec_of_no_palette hf rfl hl⟩

/-! ### RCONFETTI (R146) -/

theorem exec_rconfetti {s : State} (hf : s.fault = false) (hl : s.lutv = 0xFFFF)
    (hd : answersAll s.source (beatAt s 0) = true) :
    exec .rconfetti s =
      .next { s with pix := confettiPix s (beatAt s 0), source := afterDraws s.source (confettiBounds s) } := by
  have hbounds : (drawBounds .rconfetti s).length = beatAt s 0 := List.length_replicate
  exact exec_of_answered hf hl (hbounds ▸ hd)

/-- Settles O43: the speckle loop in closed form, with the index of each sample reduced. -/
theorem rconfettiAddsSpeckles : Obligations.RconfettiAddsSpeckles := by
  refine ⟨rfl, fun s hinv hf hl hd => ?_, fun s hf hl => exec_of_no_palette hf rfl hl⟩
  have hpix := pix_length_of_inv hinv
  refine ⟨_, exec_rconfetti hf hl hd, rfl, rfl, ?answers, rfl, (confettiPix_length _ _).trans hpix, fun i ch hi => ?pixel⟩
  case answers => exact congrArg (List.drop · _) List.length_replicate
  case pixel =>
    simp only [← sampleAt_eq]
    exact chan_confettiPix s _ ch (by omega)

/-! ### RJUGGLE (R147) -/

/-- The buffer `RJUGGLE` leaves. -/
def jugglePix (s : State) : List Colour := (List.range' 1 7).foldl (juggleDot s) (fadeAll 20 s.pix)

theorem exec_rjuggle {s : State} (hf : s.fault = false) (hl : s.lutv = 0xFFFF)
    (hdots : ∀ d, 1 ≤ d → d ≤ 7 → beatAt s d < s.params.n) : exec .rjuggle s = .next { s with pix := jugglePix s } :=
  exec_of_answered hf ⟨hl, hdots⟩ (answersAll_zero _)

theorem jugglePix_length (s : State) : (jugglePix s).length = s.pix.length :=
  (foldl_length _ (juggleDot_length s) _ _).trans (fadeAll_length _ _)

/-- A pixel after `Fade(20)`, per channel. -/
theorem chan_fadeAll_20 {pix : List Colour} {i : Nat} (ch : Channel) (hi : i < pix.length) :
    chan ch (pixAt (fadeAll 20 pix) i) = chan ch (pixAt pix i) * 235 / 255 := by
  rw [pixAt_fadeAll hi, chan_scaleC ch _ (by omega)]

theorem chan_jugglePix (s : State) (ch : Channel) {i : Nat} (hi : i < s.pix.length) :
    chan ch (pixAt (jugglePix s) i) = ((List.range' 1 7).map fun d =>
      if beatAt s d = i then chan ch (sampleAt s (s.params.juggleStep * d)) else 0).foldl
        max (chan ch (pixAt s.pix i) * 235 / 255) := by
  rw [jugglePix, ← chan_fadeAll_20 ch hi]
  exact chan_foldl_max _ _ ch i (juggleDot_length s) (fun pix d hi' => chan_updatePixel_max ch _ _ hi') _ _
    (by rwa [fadeAll_length])

/-- Settles O44: the dot loop in closed form, and the two faults in the order of the checks. -/
theorem rjuggleTakesTheMaximum : Obligations.RjuggleTakesTheMaximum := by
  refine ⟨rfl, fun s hinv hf hl hdots => ?_, fun s hf hl => exec_of_no_palette hf rfl hl,
    fun s d hf hl h1 h7 hd he => exec_of_check_some (i := .rjuggle) hf (checkJuggle_of_dot hl h1 h7 hd he)⟩
  have hpix := pix_length_of_inv hinv
  refine ⟨_, exec_rjuggle hf hl hdots, rfl, (jugglePix_length s).trans hpix, fun i ch hi => ?_⟩
  simp only [← sampleAt_eq]
  exact chan_jugglePix s ch (by omega)

/-! ### RSINELON (R148) -/

/-- The buffer `RSINELON` leaves when the previous beat was `prev`: one loop of writes, the head position first. -/
def sinelonPix (s : State) (prev : Nat) : List Colour :=
  (beatAt s 0 :: trailPositions prev (beatAt s 0)).foldl (fun pix q => pix.set (q % s.params.n) (sampleAt s 0))
    (fadeAll 20 s.pix)

theorem exec_rsinelon {s : State} (hf : s.fault = false) (hl : s.lutv = 0xFFFF)
    (hstart : s.frame = 0 ∨ s.sprev.isSome = true) :
    exec .rsinelon s =
      .next { s with pix := sinelonPix s (previousBeat s), sprev := some (BitVec.ofNat 16 (beatAt s 0)) } :=
  exec_of_answered hf ⟨hl, hstart⟩ (answersAll_zero _)

theorem sinelonPix_length (s : State) (prev : Nat) : (sinelonPix s prev).length = s.pix.length :=
  (foldl_length _ (fun _ _ => List.length_set ..) _ _).trans (fadeAll_length _ _)

/-- The pixels the head and the trail write: positions folded modulo `N`. -/
theorem exists_written_position_iff {prev pos n i : Nat} :
    (∃ q ∈ pos :: trailPositions prev pos, q % n = i) ↔
      (i = pos % n ∨ ∃ q, q % n = i ∧ (prev < q ∧ q < pos ∨ pos < q ∧ q < prev)) := by
  rw [List.exists_mem_cons_iff, eq_comm (a := i)]
  simp only [mem_trailPositions, and_comm]

theorem beatAt_lt (s : State) (d : Nat) : beatAt s d < 65536 := BitVec.isLt _

/-- The two ways the rule gives the previous beat are the two branches of `previousBeat`, and in both the check
passes. -/
theorem previousBeat_eq {s : State} {prev : Nat}
    (h : s.frame = 0 ∧ prev = beatAt s 0 ∨ s.frame ≠ 0 ∧ ∃ p, s.sprev = some p ∧ prev = p.toNat) :
    previousBeat s = prev ∧ (s.frame = 0 ∨ s.sprev.isSome = true) := by
  rcases h with ⟨hframe, rfl⟩ | ⟨hframe, p, hp, rfl⟩
  · exact ⟨if_pos hframe, .inl hframe⟩
  · exact ⟨by rw [previousBeat, if_neg hframe, hp, Option.getD_some], .inr (by rw [hp]; rfl)⟩

/-- Settles O45: head and trail are one loop of writes of one colour, seen from a pixel it hits and from one it does
not. -/
theorem rsinelonFillsTheTrail : Obligations.RsinelonFillsTheTrail := by
  refine ⟨rfl, fun s prev hinv hf hl hprev => ?_, fun s hf hl => exec_of_no_palette hf rfl hl,
    fun s hf hl hframe hnone => exec_of_check_some (i := .rsinelon) hf (checkSinelon_of_no_previous hl hframe hnone)⟩
  obtain ⟨rfl, hstart⟩ := previousBeat_eq hprev
  have hpix := pix_length_of_inv hinv
  refine ⟨_, exec_rsinelon hf hl hstart, rfl, ⟨_, rfl, ?beat⟩, rfl, (sinelonPix_length s _).trans hpix, fun i hi => ?_⟩
  case beat => rw [BitVec.toNat_ofNat, Nat.mod_eq_of_lt (beatAt_lt s 0)]
  rw [← exists_written_position_iff]
  refine ⟨fun hhit => ?written, fun hmiss ch => ?faded⟩
  case written =>
    rw [← sampleAt_zero]
    exact getElem?_foldl_set_hit _ _ _ _ (by rw [fadeAll_length]; omega) hhit
  case faded =>
    have hsame : (sinelonPix s (previousBeat s))[i]? = (fadeAll 20 s.pix)[i]? :=
      getElem?_foldl_set_other _ _ _ _ fun q hq hqi => hmiss ⟨q, hq, hqi⟩
    have hlen : i < (fadeAll 20 s.pix).length := by rw [fadeAll_length]; omega
    exact (congrArg (chan ch) (pixAt_of_getElem? (hsame.trans (getElem?_of_pixAt hlen)))).trans
      (chan_fadeAll_20 ch (by omega))

end Sys2Proof.Machine
end

section
/-! Fault entry and the frozen block: what a step that raises a fault leaves, which codes a command raises, the range
checks of RJUGGLE, RCANDLE and RSINELON, and what a frozen block answers (60_exceptions.md R171 to R181). -/

namespace Sys2Proof.Machine

open Sys2Proof.Safety

/-! ### What raises a fault (R171, R172) -/

section Raises
variable {s t : State}

/-- A command that faults leaves what its failed check reports, with the command's own word, and nothing else. -/
theorem exec_raises {i : Instr} (hf : s.fault = false) (h : exec i s = .next t) (ht : t.fault = true) :
    ∃ code info, checkOf i s = some (code, info) ∧
      t = faulted (faultNumber code) (BitVec.ofNat 16 info) (encode i) s := by
  rcases exec_cases h with ⟨hfrozen, -⟩ | ⟨-, code, info, hcheck, rfl⟩ | ⟨-, -, -, rfl⟩ | ⟨-, -, -, rfl⟩
  · exact absurd (hf.symm.trans hfrozen) Bool.false_ne_true
  · exact ⟨code, info, hcheck, raiseFault_eq_faulted hf ..⟩
  · simp [effectOf_frame i s, hf] at ht
  · simp [hf] at ht

/-- A read that faults is one the map does not permit, answered with 0. -/
theorem hostRead_raises {a : Addr} (hf : s.fault = false) (ht : (hostRead a s).fault = true) :
    hostRead a s = { faulted (faultNumber .eAddr) (BitVec.ofNat 16 a.toNat) 0 s with answer := some 0 } := by
  unfold hostRead at *
  split at ht
  · exact absurd (hf.symm.trans ht) Bool.false_ne_true
  · rw [← raiseFault_eq_faulted hf]

/-- A write that faults has stored nothing. -/
theorem hostStore_raises {a : Addr} {v : Word} (hf : s.fault = false) (ht : (hostStore a v s).fault = true) :
    hostStore a v s = faulted (faultNumber .eAddr) (BitVec.ofNat 16 a.toNat) 0 s := by
  unfold hostStore at *
  rw [if_neg (by simp [hf])] at *
  split at ht
  · next u hu =>
    obtain ⟨tgt, -, hstored⟩ := Option.bind_eq_some_iff.mp hu
    obtain ⟨-, -, -, hkept, -⟩ := writeTarget_frame hstored
    exact absurd ((hkept.trans hf).symm.trans ht) Bool.false_ne_true
  · exact raiseFault_eq_faulted hf ..

end Raises

/-- A step that enters a fault leaves the old state with the fault registers written, the request taken and answered.
An access fault is recorded with no command, every other fault with the word written to `CMD`. -/
theorem step_raises {s t : State} (hf : s.fault = false) (h : step s = .next t) (ht : t.fault = true) :
    ∃ (code : FaultCode) (info : Nat) (word : Word),
      t = faulted (faultNumber code) (BitVec.ofNat 16 info) word { s with host := s.host.tail, answer := t.answer } ∧
      ((code = .eAddr ∧ word = 0) ∨ (code ≠ .eAddr ∧ s.host.head? = some (.write 0x000 word))) := by
  rcases step_cases h with ⟨-, -, rfl⟩ | ⟨rest, -, rfl⟩ | ⟨-, a, rest, hh, rfl⟩ | ⟨-, a, v, rest, hh, -, rfl⟩ |
    ⟨-, hfrozen, -⟩ | ⟨-, -, v, rest, why, hh, -, rfl⟩ | ⟨-, -, v, rest, i, hh, hd, he⟩
  · exact absurd (hf.symm.trans ht) Bool.false_ne_true
  · cases ht
  · refine ⟨.eAddr, a.toNat, 0, ?_, .inl ⟨rfl, rfl⟩⟩
    rw [hostRead_raises (s := takeRequest rest s) hf ht, hh]
    rfl
  · refine ⟨.eAddr, a.toNat, 0, ?_, .inl ⟨rfl, rfl⟩⟩
    rw [hostStore_raises (s := takeRequest rest s) hf ht, hh]
    rfl
  · exact absurd (hf.symm.trans hfrozen) Bool.false_ne_true
  · refine ⟨.eOpcode, 0, v, ?_, .inr ⟨by decide, by rw [hh]; rfl⟩⟩
    rw [raiseFault_eq_faulted (s := takeRequest rest s) hf, hh]
    rfl
  · obtain ⟨code, info, hcheck, rfl⟩ := exec_raises (s := takeRequest rest s) hf he ht
    obtain ⟨-, haddr⟩ := mayRaise_faultNumber (mayRaise_of_checkOf hcheck)
    refine ⟨code, info, v, ?_, .inr ⟨haddr, by rw [hh]; rfl⟩⟩
    rw [encode_of_decode hd, hh]
    rfl

/-- Settles O13: no step enters a fault but by fault entry, and the output follows `FAULT`. -/
theorem faultsArePrecise : Obligations.FaultsArePrecise := by
  refine ⟨fun s t hf h ht => ?_, fun s code info word hf => raiseFault_of_fault hf code info word⟩
  obtain ⟨code, info, word, hstate, hword⟩ := step_raises hf h ht
  obtain ⟨-, -, -, -, -, -, -, -, hpin⟩ := statusFields t
  exact ⟨code, info, word, hstate, hpin.trans ht, hword⟩

/-! ### The codes of each command (R171) -/

/-- The code a command leaves is one its check reports. -/
theorem mayRaise_of_exec {i : Instr} {s t : State} (hf : s.fault = false) (h : exec i s = .next t)
    (ht : t.fault = true) : mayRaise i t.fcode = true := by
  obtain ⟨code, info, hcheck, rfl⟩ := exec_raises hf h ht
  exact mayRaise_of_checkOf hcheck

/-- Settles O14: the code comes from the command's check, and each check reports codes of its row alone. -/
theorem commandsRaiseOnlyTheirCodes : Obligations.CommandsRaiseOnlyTheirCodes := fun _ _ _ => mayRaise_of_exec

/-- `E_PIXRANGE` stands in the row of one command. -/
theorem eq_rjuggle_of_mayRaise_pixrange {i : Instr} (h : mayRaise i 5 = true) : i = .rjuggle := by
  cases i
  case rjuggle => rfl
  all_goals cases h

/-! ### RJUGGLE, RCANDLE and RSINELON (R177, R178, R180) -/

/-- Settles O17: the check comes before the fade, the palette first in it, then the dots in ascending order. -/
theorem juggleRangeCheck : Obligations.JuggleRangeCheck := by
  refine ⟨fun s d hf hl h1 h7 hd he => exec_of_check_some (i := .rjuggle) hf (checkJuggle_of_dot hl h1 h7 hd he),
    fun s hf hl => exec_of_no_palette hf rfl hl, fun i s t hf h ht hcode => ?_⟩
  have hrow := mayRaise_of_exec hf h ht
  rw [hcode] at hrow
  exact eq_rjuggle_of_mayRaise_pixrange hrow

/-- Settles O18: the check comes before the draws, the palette first in it. -/
theorem candleRangeCheck : Obligations.CandleRangeCheck :=
  ⟨fun _ hf hl hsum => exec_of_check_some (i := .rcandle) hf (checkCandle_of_over hl hsum),
    fun _ hf hl => exec_of_no_palette hf rfl hl⟩

/-- Settles O19: the palette comes first in the check, then the missing previous position. -/
theorem sinelonInitCheck : Obligations.SinelonInitCheck :=
  ⟨fun _ hf hl hframe hnone => exec_of_check_some (i := .rsinelon) hf (checkSinelon_of_no_previous hl hframe hnone),
    fun _ hf hl => exec_of_no_palette hf rfl hl⟩

/-! ### The frozen block (R173) -/

section Frozen
variable {s : State} {a : Addr} {rest : List PortEvent}

/-- A write is taken and ignored, to `CMD` as to any other address. -/
theorem step_write_of_fault {v : Word} (hf : s.fault = true) (hb : s.busy = false) (hh : s.host = .write a v :: rest) :
    step s = .next (takeRequest rest s) := by
  unfold step
  by_cases ha : a = cmdAddr
  · subst ha
    rw [nextAction_command hb hh, commandAction, takeRequest_fault, if_pos hf]
  · rw [nextAction_store hb hh ha, hostStore, takeRequest_fault, if_pos hf]

/-- A read is answered as on a live block, with 0 where there is no word. -/
theorem step_read_of_fault (hf : s.fault = true) (hb : s.busy = false) (hh : s.host = .read a :: rest) :
    ∃ f, step s = .next { s with host := rest, answer := some ((readWord s a).getD 0), fresh := f } := by
  rcases hword : readWord s a with _ | w
  · exact ⟨s.fresh, step_read_of_none_frozen hb hf hh hword⟩
  · exact step_read_of_some hb hh hword

end Frozen

/-- Settles O12: `FAULT` stops each kind of request but a reset, which clears it. -/
theorem frozenBlock : Obligations.FrozenBlock := fun _ hf hb =>
  ⟨fun _ => exec_of_fault hf, fun _ _ _ => step_write_of_fault hf hb, fun _ _ => step_read_of_fault hf hb,
    fun _ hh => ⟨_, step_rst hh, rfl⟩⟩

end Sys2Proof.Machine
end

section
/-! Reset and hazards: the idle block, what a step other than a reset cannot clear, and the commands that overwrite the
whole buffer (70_reset_and_hazards.md R190, R191, R200). -/

namespace Sys2Proof.Machine

/-! ### No request (R191) -/

theorem nextAction_idle {s : State} (hb : s.busy = false) (hh : s.host = []) : nextAction s = .done s := by
  simp [nextAction, hh, hb]

/-- Settles O6: the block acts on requests alone. -/
theorem idleBlockHoldsItsState : Obligations.IdleBlockHoldsItsState := fun s hh hb => by
  rw [step, nextAction_idle hb hh]

/-! ### What reset alone clears (R190) -/

/-- From `s` to `t` nothing is cleared that reset alone clears: `FAULT`, a bit of `LUTV`, `SPREV.v`. -/
structure ClearsNothing (s t : State) : Prop where
  fault : s.fault = true → t.fault = true
  lutv  : ∀ k, s.lutv.getLsbD k = true → t.lutv.getLsbD k = true
  sprev : s.sprev.isSome = true → t.sprev.isSome = true

namespace ClearsNothing

theorem refl (s : State) : ClearsNothing s s := ⟨id, fun _ => id, id⟩

theorem trans {s t u : State} (hst : ClearsNothing s t) (htu : ClearsNothing t u) : ClearsNothing s u :=
  ⟨htu.fault ∘ hst.fault, fun k => htu.lutv k ∘ hst.lutv k, htu.sprev ∘ hst.sprev⟩

theorem of_takeRequest {rest : List PortEvent} {s t : State} (h : ClearsNothing (takeRequest rest s) t) :
    ClearsNothing s t :=
  trans (t := takeRequest rest s) ⟨id, fun _ => id, id⟩ h

end ClearsNothing

theorem raiseFault_clearsNothing (code : FaultCode) (info : Nat) (word : Word) (s : State) :
    ClearsNothing s (raiseFault code info word s) where
  fault _ := raiseFault_fault ..
  lutv _ hk := by rwa [raiseFault_lutv]
  sprev hp := by rwa [raiseFault_sprev]

theorem hostRead_clearsNothing (a : Addr) (s : State) : ClearsNothing s (hostRead a s) := by
  unfold hostRead
  split
  · exact { ClearsNothing.refl s with }
  · exact { raiseFault_clearsNothing .eAddr a.toNat 0 s with }

/-- A host write of a palette entry only adds a bit to `LUTV`. -/
theorem writeTarget_clearsNothing {v : Word} {tgt : Target} {s t : State} (h : writeTarget s v tgt = some t) :
    ClearsNothing s t := by
  obtain ⟨-, -, -, hfault, -, -, hsprev⟩ := writeTarget_frame h
  refine ⟨hfault.trans, fun j hj => ?_, fun hp => hsprev ▸ hp⟩
  cases tgt
  case lut k => rw [writeTarget_lut_lutv h, BitVec.getLsbD_or, hj, Bool.true_or]
  all_goals cases h <;> exact hj

theorem hostStore_clearsNothing (a : Addr) (v : Word) (s : State) : ClearsNothing s (hostStore a v s) := by
  unfold hostStore
  split
  · exact .refl s
  · split
    · next t ht =>
      obtain ⟨tgt, -, hstored⟩ := Option.bind_eq_some_iff.mp ht
      exact writeTarget_clearsNothing hstored
    · exact raiseFault_clearsNothing ..

/-- A full palette has every bit any palette has. -/
theorem getLsbD_full_of_getLsbD {l : Half} {k : Nat} (h : l.getLsbD k = true) : (0xFFFF : Half).getLsbD k = true := by
  have hfull : (0xFFFF : Half) = BitVec.allOnes 16 := rfl
  rw [hfull, BitVec.getLsbD_allOnes, decide_eq_true_eq]
  exact BitVec.lt_of_getLsbD h

/-- The commands that write `LUTV` fill it, the one that writes `SPREV` sets its valid bit. -/
theorem effectOf_clearsNothing (i : Instr) (s : State) : ClearsNothing s (effectOf i s) := by
  refine ⟨fun hf => by simpa only [effectOf_frame i s] using hf, fun k hk => ?lutv, fun hp => ?sprev⟩
  case lutv =>
    cases i
    case pbuild => exact getLsbD_full_of_getLsbD hk
    case pblend4 => exact getLsbD_full_of_getLsbD hk
    all_goals exact hk
  case sprev =>
    cases i
    case rsinelon => rfl
    all_goals exact hp

theorem hang_clearsNothing (bounds : List Nat) (i : Instr) (s : State) :
    ClearsNothing s (hang bounds (waitingOf i s)) := by
  constructor <;> simp

theorem exec_clearsNothing {i : Instr} {s t : State} (h : exec i s = .next t) : ClearsNothing s t := by
  rcases exec_cases h with ⟨-, rfl⟩ | ⟨-, code, info, -, rfl⟩ | ⟨-, -, -, rfl⟩ | ⟨-, -, -, rfl⟩
  · exact .refl t
  · exact raiseFault_clearsNothing ..
  · exact effectOf_clearsNothing i s
  · exact hang_clearsNothing _ i s

theorem step_clearsNothing {s t : State} (hrst : ∀ rest, s.host ≠ .rst :: rest) (h : step s = .next t) :
    ClearsNothing s t := by
  rcases step_cases h with ⟨-, -, rfl⟩ | ⟨rest, hh, -⟩ | ⟨-, a, rest, -, rfl⟩ | ⟨-, a, v, rest, -, -, rfl⟩ |
    ⟨-, -, v, rest, -, rfl⟩ | ⟨-, -, v, rest, why, -, -, rfl⟩ | ⟨-, -, v, rest, i, -, -, he⟩
  · exact .refl t
  · exact absurd hh (hrst rest)
  · exact .of_takeRequest (hostRead_clearsNothing ..)
  · exact .of_takeRequest (hostStore_clearsNothing ..)
  · exact .of_takeRequest (.refl _)
  · exact .of_takeRequest (raiseFault_clearsNothing ..)
  · exact .of_takeRequest (exec_clearsNothing he)

theorem assertReset_busyPin (s : State) : (assertReset s).busyPin = false := by
  rw [State.busyPin, statusWord_assertReset]; rfl

theorem assertReset_faultPin (s : State) : (assertReset s).faultPin = false := by
  rw [State.faultPin, statusWord_assertReset]; rfl

/-- Settles O11: a reset request comes before every look at `BUSY` and `FAULT`, and no other request clears what reset
alone clears. -/
theorem resetAloneClears : Obligations.ResetAloneClears := by
  refine ⟨fun s rest hh => ⟨_, step_rst hh, rfl, assertReset_busyPin _, assertReset_faultPin _⟩,
    fun s t hrst h => ?_⟩
  obtain ⟨hfault, hlutv, hsprev⟩ := step_clearsNothing hrst h
  exact ⟨hfault, hlutv, hsprev⟩

/-! ### The full-frame commands (R200) -/

/-- A command that ends with both `FAULT` and `BUSY` at 0 has passed its checks, got its answers and had its effect. -/
theorem exec_completed {i : Instr} {s t : State} (h : exec i s = .next t) (hf : t.fault = false) (hb : t.busy = false) :
    s.fault = false ∧ checkOf i s = none ∧ answersAll s.source (boundsOf i s).length = true ∧ t = effectOf i s := by
  rcases exec_cases h with ⟨hfrozen, rfl⟩ | ⟨-, code, info, -, rfl⟩ | hdone | ⟨-, -, -, rfl⟩
  · exact absurd (hf.symm.trans hfrozen) Bool.false_ne_true
  · simp at hf
  · exact hdone
  · simp at hb

section OldBuffer
variable (i : Instr) (s : State) (old : List Colour)

/-- No check looks at the buffer. -/
theorem checkOf_withPix : checkOf i { s with pix := old } = checkOf i s := by cases i <;> rfl

/-- No bound depends on the buffer. -/
theorem boundsOf_withPix : boundsOf i { s with pix := old } = boundsOf i s := by cases i <;> rfl

variable {i}

/-- Each full-frame command paints every pixel before anything reads one: `RSWEEPG` sweeps before its glitter step. -/
theorem effectOf_withPix_of_fullFrame
    (hi : i = .rsweep ∨ i = .rsweepg ∨ i = .rleader ∨ i = .rdist ∨ i = .rcandle) :
    effectOf i { s with pix := old } = effectOf i s := by
  rcases hi with rfl | rfl | rfl | rfl | rfl <;> rfl

end OldBuffer

/-- Settles O47: neither the check, nor the draws, nor the effect of a full-frame command depends on the old buffer. -/
theorem fullFrameCommandsIgnoreTheOldBuffer : Obligations.FullFrameCommandsIgnoreTheOldBuffer := by
  intro i s t old hi hf h ht hb
  obtain ⟨-, hcheck, hdraws, rfl⟩ := exec_completed h ht hb
  rw [← effectOf_withPix_of_fullFrame s old hi]
  exact exec_of_check_none hf ((checkOf_withPix i s old).trans hcheck) (by rwa [boundsOf_withPix])

end Sys2Proof.Machine
end
